-- ==== Sys2Proof/Word.lean ====
section
/-! DEFINITION. The words on the ports and the engine's value types (R10, R17, R20, R28, R67, R74, R113).
Digits and coordinates are `Fin 9`: the spec makes them integers in 0..8 that are range-checked when they are
constructed (R18, R28), so past decoding no invalid one exists. A candidate set and the port words are bit vectors,
because the spec masks, shifts and slices them. -/

namespace Sys2Proof

/-- A command word as it stands on the port `cmd`, 32 bits (R10, R67). -/
abbrev Cmd := BitVec 32

/-- A response word as it stands on the port `rsp`, 16 bits (R10, R74). -/
abbrev Rsp := BitVec 16

/-- A Digit, an "integer in [0,8]" (R17). Digit `d` stands for the symbol `'1' + d`. -/
abbrev Digit := Fin 9

/-- A CandidateSet: bit `d` is 1 when Digit `d` is still possible; all 512 values are valid (R20). -/
abbrev CandidateSet := BitVec 9

/-- A global bit index that a command may name, 0..728 (R42, R101). -/
abbrev BitIndex := Fin 729

/-- A cell of the grid, row first (R28, R16; conflict C11 settles the order). -/
structure Cell where
  row : Fin 9
  col : Fin 9
deriving DecidableEq, Repr

/-- A 3×3 block by its coordinates (R28). -/
structure Block where
  blockColumn : Fin 3
  blockRow    : Fin 3
deriving DecidableEq, Repr

/-- An offset within a 3×3 block (R28). -/
structure BlockPoint where
  offsetColumn : Fin 3
  offsetRow    : Fin 3
deriving DecidableEq, Repr

/-- The seven outcomes of a command (R113). All but `ok` play the part of a synchronous exception: precise, nothing
written to `M` (R120), nothing saved and no control transferred (R121). -/
inductive Status where
  /-- the command completed -/
  | ok
  /-- GETD: the cell's set does not have exactly one bit (R114) -/
  | ambiguousCandidates
  /-- SETD, COMMIT: the `DIG` field is 9..15 (R115) -/
  | invalidDigit
  /-- SETC: `IMM` has a bit above bit 8 (R116) -/
  | setTooLarge
  /-- SETC, SETD, GETC, GETD, COMMIT: `ROW` or `COL` is 9..15 (R117) -/
  | invalidCoordinate
  /-- CLRBIT, SETBIT: `IMM` is above 728 (R118) -/
  | bitIndexOutOfRange
  /-- any word: reserved opcode, or a must-be-zero bit is 1 (R122) -/
  | illegalCommand
deriving DecidableEq, Repr

end Sys2Proof
end

