-- ==== Sys2Proof/Config.lean ====
section
/-! DEFINITION. What an implementation fixes: the constants of R6 and the one open parameter, the word width `W` (R7),
with the number of words it gives (R8). The spec leaves no value of the engine undefined, so there is no free value
here. -/

namespace Sys2Proof

/-- The legal word widths `W`: "`W ∈ {8, 16, 32, 64}`" (R7); any other width is outside the spec (U1). -/
inductive Width where
  | w8
  | w16
  | w32
  | w64
deriving DecidableEq, Repr

/-- `W`, the number of bits in a word of `M` (R7). -/
def Width.bits : Width → Nat
  | .w8  => 8
  | .w16 => 16
  | .w32 => 32
  | .w64 => 64

namespace Config

/-- `WIDTH`, the number of columns (R6). -/
abbrev gridWidth : Nat := 9

/-- `HEIGHT`, the number of rows (R6). -/
abbrev gridHeight : Nat := 9

/-- `BLOCK`, the side of a block (R6). -/
abbrev blockSize : Nat := 3

/-- `NBLK`, the number of blocks per axis (R6). -/
abbrev blocksPerAxis : Nat := 3

/-- `FIELD`, the width of a candidate set in bits (R6, R9). -/
abbrev fieldBits : Nat := 9

/-- `MASK = 0x1FF` (R6), which is also `ANY` (R21). -/
abbrev any : CandidateSet := 0x1FF#9

/-- `NCELLS = 81` (R6). -/
abbrev ncells : Nat := gridWidth * gridHeight

/-- `TOTAL_BITS = 729` (R6). -/
abbrev totalBits : Nat := ncells * fieldBits

/-- The default of `W` (R7). -/
def defaultWidth : Width := .w64

/-- The placeholder of an unknown cell in a grid of characters, "e.g. `'.'`" (R106, U4). Host side only; see log
entry 9. -/
def blank : Char := '.'

end Config

/-- `NWORDS = ceil(TOTAL_BITS / W)` (R8). -/
def Width.nwords (w : Width) : Nat := (Config.totalBits + w.bits - 1) / w.bits

/-- `PAD = NWORDS*W - 729`, the number of tail padding bits (R8). -/
def Width.pad (w : Width) : Nat := w.nwords * w.bits - Config.totalBits

end Sys2Proof
end

