-- ==== Sys2Proof/Machine/Operands.lean ====
section
/-! DEFINITION. Operand forms and the value types' operations: the range checks that turn a raw field into a typed value
(R18, R20, R28, R73, R101), the operations of a candidate set (R21 to R26), the coordinate conversions (R29), the groups
and peers of a cell (R30, R95). -/

namespace Sys2Proof

/-! ### Construction-time range validation -/

/-- `digitOK(x) = (x ≤ 8)` (R18). -/
def digitOK (x : BitVec 4) : Bool := decide (x.toNat ≤ 8)

/-- `coordOK(x) = (x ≤ 8)` (R28). -/
def coordOK (x : BitVec 4) : Bool := decide (x.toNat ≤ 8)

/-- `setOK(x) = (x & not_16(0x1FF)) = 0` (R20). -/
def setOK (x : BitVec 16) : Bool := decide (x &&& ~~~0x01FF#16 = 0#16)

/-- The range check of CLRBIT and SETBIT, `index ≤ 728` (R101, R102). -/
def bitIndexOK (x : BitVec 16) : Bool := decide (x.toNat ≤ 728)

theorem toNat_le_of_digitOK {x : BitVec 4} (h : digitOK x = true) : x.toNat ≤ 8 := by
  simpa [digitOK] using h

theorem toNat_le_of_coordOK {x : BitVec 4} (h : coordOK x = true) : x.toNat ≤ 8 := by
  simpa [coordOK] using h

theorem toNat_le_of_bitIndexOK {x : BitVec 16} (h : bitIndexOK x = true) : x.toNat ≤ 728 := by
  simpa [bitIndexOK] using h

/-- A Digit from the 4-bit `DIG` field; 9..15 is `InvalidDigit` (R18, R115). -/
def Digit.construct (raw : BitVec 4) : Except Status Digit :=
  if h : digitOK raw then .ok ⟨raw.toNat, Nat.lt_succ_of_le (toNat_le_of_digitOK h)⟩ else .error .invalidDigit

/-- A CandidateSet from the raw 16-bit `IMM` field; a bit above bit 8 is `SetTooLarge` (R27, R116). -/
def CandidateSet.construct (raw : BitVec 16) : Except Status CandidateSet :=
  if setOK raw then .ok (raw.setWidth 9) else .error .setTooLarge

/-- A cell from the 4-bit `ROW` and `COL` fields; 9..15 in either is `InvalidCoordinate` (R28, R117). -/
def Cell.construct (row col : BitVec 4) : Except Status Cell :=
  if h : coordOK row ∧ coordOK col then
    .ok ⟨⟨row.toNat, Nat.lt_succ_of_le (toNat_le_of_coordOK h.1)⟩, ⟨col.toNat, Nat.lt_succ_of_le (toNat_le_of_coordOK h.2)⟩⟩
  else .error .invalidCoordinate

/-- A global bit index from the 16-bit `IMM` field; above 728 is `BitIndexOutOfRange` (R101, R118). -/
def BitIndex.construct (raw : BitVec 16) : Except Status BitIndex :=
  if h : bitIndexOK raw then .ok ⟨raw.toNat, Nat.lt_succ_of_le (toNat_le_of_bitIndexOK h)⟩ else .error .bitIndexOutOfRange

/-! ### Candidate sets -/

/-- The nine values 0..8 in increasing order. -/
def nine : List (Fin 9) := [0, 1, 2, 3, 4, 5, 6, 7, 8]

/-- The three values 0..2 in increasing order. -/
def three : List (Fin 3) := [0, 1, 2]

/-- `fromDigit(d) = 1 << d` (R22). -/
def fromDigit (d : Digit) : CandidateSet := 1#9 <<< d.val

/-- `contains(s, d) = (s[d] = 1)` (R23). -/
def contains (s : CandidateSet) (d : Digit) : Bool := s.getLsbD d.val

/-- `union(a, b) = a | b` (R24). No command exposes it. -/
def union (a b : CandidateSet) : CandidateSet := a ||| b

/-- `symmetricDifference(a, b) = a ^ b` (R24). No command exposes it. -/
def symmetricDifference (a b : CandidateSet) : CandidateSet := a ^^^ b

/-- `s & not_9(1 << d)`: the set without Digit `d`, what one elimination leaves (R94, R98). -/
def without (s : CandidateSet) (d : Digit) : CandidateSet := s &&& ~~~(fromDigit d)

/-- `count(s) = popcount(s)`, "the number of `i` with `v[i] = 1`" (R13, R25). -/
def count (s : CandidateSet) : Nat := (nine.filter (contains s)).length

/-- `ctz(s)`, "the least `i` with `v[i] = 1`", which the empty set does not have (R13). -/
def ctz? (s : CandidateSet) : Option Digit := nine.find? (contains s)

/-- `toDigit(s)`: the digit of a set with exactly one bit, else `AmbiguousCandidates` (R26). -/
def toDigit (s : CandidateSet) : Except Status Digit :=
  if count s = 1 then
    match ctz? s with
    | some d => .ok d
    | none   => .error .ambiguousCandidates
  else .error .ambiguousCandidates

/-! ### Coordinates -/

/-- `index(row, col) = row * 9 + col`, the flat cell index 0..80 (R29). -/
def Cell.index (p : Cell) : Nat := p.row.val * Config.gridWidth + p.col.val

/-- The cell of a flat index: `rowOf(i) = i / 9`, `colOf(i) = i % 9` (R29). -/
def Cell.ofIndex (i : Fin 81) : Cell :=
  ⟨⟨i.val / 9, Nat.div_lt_of_lt_mul i.isLt⟩, ⟨i.val % 9, Nat.mod_lt _ (by decide)⟩⟩

/-- `offset(row, col) = (row*9 + col) * 9`, the global bit at which the cell's field starts (R45). -/
def Cell.offset (p : Cell) : Nat := p.index * Config.fieldBits

theorem Cell.index_lt (p : Cell) : p.index < 81 := by
  have := p.row.isLt
  have := p.col.isLt
  simp only [Cell.index, Config.gridWidth]
  omega

theorem Cell.offset_add_nine_le (p : Cell) : p.offset + 9 ≤ Config.totalBits := by
  have := p.index_lt
  simp only [Cell.offset, Config.fieldBits, Config.totalBits, Config.ncells, Config.gridWidth, Config.gridHeight]
  omega

/-- The global index of bit `d` of the cell's field, `offset + d` (R45, R103). -/
def Cell.bitOf (p : Cell) (d : Digit) : BitIndex :=
  ⟨p.offset + d.val, Nat.lt_of_lt_of_le (Nat.add_lt_add_left d.isLt _) p.offset_add_nine_le⟩

/-- The cell whose field holds a global bit, `i = g / 9` (R103). -/
def BitIndex.cell (g : BitIndex) : Cell := Cell.ofIndex ⟨g.val / 9, Nat.div_lt_of_lt_mul g.isLt⟩

/-- The digit a global bit stands for, `d = g % 9` (R103). -/
def BitIndex.digit (g : BitIndex) : Digit := ⟨g.val % 9, Nat.mod_lt _ (by decide)⟩

/-- `block(row, col) = (col / 3, row / 3)` (R29). -/
def Cell.block (p : Cell) : Block :=
  ⟨⟨p.col.val / 3, Nat.div_lt_of_lt_mul p.col.isLt⟩, ⟨p.row.val / 3, Nat.div_lt_of_lt_mul p.row.isLt⟩⟩

/-- `offsetIn(row, col) = (col % 3, row % 3)` (R29). -/
def Cell.offsetIn (p : Cell) : BlockPoint :=
  ⟨⟨p.col.val % 3, Nat.mod_lt _ (by decide)⟩, ⟨p.row.val % 3, Nat.mod_lt _ (by decide)⟩⟩

theorem gridPoint_lt (b o : Fin 3) : b.val * 3 + o.val < 9 := by omega

/-- `toGridPoint(block, offset)`: column `blockColumn*3 + offsetColumn`, row `blockRow*3 + offsetRow` (R29). -/
def toGridPoint (b : Block) (o : BlockPoint) : Cell :=
  ⟨⟨b.blockRow.val * 3 + o.offsetRow.val, gridPoint_lt _ _⟩, ⟨b.blockColumn.val * 3 + o.offsetColumn.val, gridPoint_lt _ _⟩⟩

/-- The flat in-block offset, `k = offsetRow*3 + offsetColumn` (R29, D27). -/
def BlockPoint.flat (o : BlockPoint) : Fin 9 := ⟨o.offsetRow.val * 3 + o.offsetColumn.val, gridPoint_lt _ _⟩

/-- The in-block offset of a flat one: `offsetRow = k / 3`, `offsetColumn = k % 3` (R29, D27). -/
def BlockPoint.ofFlat (k : Fin 9) : BlockPoint :=
  ⟨⟨k.val % 3, Nat.mod_lt _ (by decide)⟩, ⟨k.val / 3, Nat.div_lt_of_lt_mul k.isLt⟩⟩

/-! ### Groups and peers -/

/-- The 9 cells of the cell's row, by increasing column (R30). -/
def rowGroup (p : Cell) : List Cell := nine.map fun k => ⟨p.row, k⟩

/-- The 9 cells of the cell's column, by increasing row (R30). -/
def colGroup (p : Cell) : List Cell := nine.map fun k => ⟨k, p.col⟩

/-- The 9 cells of the cell's block, by increasing row and, within a row, increasing column (R30). -/
def blockGroup (p : Cell) : List Cell := three.flatMap fun i => three.map fun j => toGridPoint p.block ⟨j, i⟩

/-- The 20 peers of a cell, `(rowGroup ∪ colGroup ∪ blockGroup) \ {p}` (R30), listed in the reference order of R95: row
peers, column peers, then the block cells that are in neither. -/
def peers (p : Cell) : List Cell :=
  (rowGroup p).filter (· ≠ p) ++ (colGroup p).filter (· ≠ p) ++
    (blockGroup p).filter (fun q => q.row ≠ p.row ∧ q.col ≠ p.col)

/-- `q` is a peer of `p`: another cell in the same row, column or block (R16, R30). -/
def isPeer (p q : Cell) : Bool := decide (q ≠ p ∧ (q.row = p.row ∨ q.col = p.col ∨ q.block = p.block))

end Sys2Proof
end

