-- ==== Sys2Proof/Syntax.lean ====
section
/-! DEFINITION. The eight commands, one constructor for each row of the opcode map (R76). A constructor carries the
fields of its format as they stand in the word (R67 to R73), "before operand validation" (R76): a command whose operand
is out of range is still that command, and answers with the status its own rule gives (R90 to R94, R101, R102). -/

namespace Sys2Proof

/-- A command of the engine. -/
inductive Instr where
  /-- NEW, format N (R68, R89) -/
  | new
  /-- SETC, format PS (R71, R90) -/
  | setc (row col : BitVec 4) (set : BitVec 16)
  /-- SETD, format PD (R70, R91) -/
  | setd (row col digit : BitVec 4)
  /-- GETC, format P (R69, R92) -/
  | getc (row col : BitVec 4)
  /-- GETD, format P (R69, R93) -/
  | getd (row col : BitVec 4)
  /-- COMMIT, format PD (R70, R94) -/
  | commit (row col digit : BitVec 4)
  /-- CLRBIT, format B (R72, R101) -/
  | clrbit (index : BitVec 16)
  /-- SETBIT, format B (R72, R102) -/
  | setbit (index : BitVec 16)
deriving DecidableEq, Repr

end Sys2Proof
end

