-- ==== Sys2Proof/Decode.lean ====
section
/-! DEFINITION. The command decoder (R67 to R81) and, after it, the encoder written from the same tables. Decoding is
total: a word is one of the eight commands or it is refused by name, `IllegalCommand` (R77, R78). `decodeCommand` is
steps 1 and 2 of R81, "before operand validation" (R76); `operandError` is steps 3 to 6; `decode` is all of R81. -/

namespace Sys2Proof

/-! ### Fields of a command word (R67, R73) -/

/-- `OP`, bits 31:28. -/
def opField (c : Cmd) : BitVec 4 := c.extractLsb' 28 4

/-- `ROW`, bits 27:24. -/
def rowField (c : Cmd) : BitVec 4 := c.extractLsb' 24 4

/-- `COL`, bits 23:20. -/
def colField (c : Cmd) : BitVec 4 := c.extractLsb' 20 4

/-- `DIG`, bits 19:16. -/
def digField (c : Cmd) : BitVec 4 := c.extractLsb' 16 4

/-- `IMM`, bits 15:0. -/
def immField (c : Cmd) : BitVec 16 := c.extractLsb' 0 16

/-! ### Opcode map (R76) -/

/-- The eight opcodes. -/
inductive Opcode where
  | new
  | setc
  | setd
  | getc
  | getd
  | commit
  | clrbit
  | setbit
deriving DecidableEq, Repr

/-- The five formats (R67). -/
inductive Format where
  | n
  | p
  | pd
  | ps
  | b
deriving DecidableEq, Repr

/-- The opcode number of a command (R76). -/
def Opcode.code : Opcode → BitVec 4
  | .new    => 0x1#4
  | .setc   => 0x2#4
  | .setd   => 0x3#4
  | .getc   => 0x4#4
  | .getd   => 0x5#4
  | .commit => 0x6#4
  | .clrbit => 0x7#4
  | .setbit => 0x8#4

/-- The command of an opcode number; 0x0 and 0x9..0xF are reserved (R76, R77). -/
def Opcode.ofCode (c : BitVec 4) : Option Opcode :=
  match c.toNat with
  | 1 => some .new
  | 2 => some .setc
  | 3 => some .setd
  | 4 => some .getc
  | 5 => some .getd
  | 6 => some .commit
  | 7 => some .clrbit
  | 8 => some .setbit
  | _ => none

/-- The format of a command (R67). -/
def Opcode.format : Opcode → Format
  | .new    => .n
  | .setc   => .ps
  | .setd   => .pd
  | .getc   => .p
  | .getd   => .p
  | .commit => .pd
  | .clrbit => .b
  | .setbit => .b

/-- The bits a format requires to be zero (R67, R78). -/
def Format.mustBeZero : Format → Cmd
  | .n  => 0x0FFFFFFF#32
  | .p  => 0x000FFFFF#32
  | .pd => 0x0000FFFF#32
  | .ps => 0x000F0000#32
  | .b  => 0x0FFF0000#32

/-- `mask(op)`: the bits of `OP` and the must-be-zero bits (R76). -/
def Opcode.mask (op : Opcode) : Cmd := 0xF0000000#32 ||| op.format.mustBeZero

/-- `match(op)`: the opcode in bits 31:28, zeros elsewhere (R76). -/
def Opcode.pattern (op : Opcode) : Cmd := op.code ++ 0#28

/-- The instruction of an opcode with the fields its format uses (R68 to R72). -/
def Opcode.instr (op : Opcode) (c : Cmd) : Instr :=
  match op with
  | .new    => .new
  | .setc   => .setc (rowField c) (colField c) (immField c)
  | .setd   => .setd (rowField c) (colField c) (digField c)
  | .getc   => .getc (rowField c) (colField c)
  | .getd   => .getd (rowField c) (colField c)
  | .commit => .commit (rowField c) (colField c) (digField c)
  | .clrbit => .clrbit (immField c)
  | .setbit => .setbit (immField c)

/-! ### Decoding (R81) -/

/-- Steps 1 and 2 of R81: the command a word encodes, or `IllegalCommand` for a reserved opcode (R77) or a nonzero
must-be-zero bit (R78). -/
def decodeCommand (c : Cmd) : Except Status Instr :=
  match Opcode.ofCode (opField c) with
  | none    => .error .illegalCommand
  | some op => if c &&& op.mask = op.pattern then .ok (op.instr c) else .error .illegalCommand

/-- Step 3 of R81, for the formats with a cell operand. -/
def coordError (row col : BitVec 4) : Option Status :=
  if coordOK row && coordOK col then none else some .invalidCoordinate

/-- Step 4 of R81. -/
def digitError (digit : BitVec 4) : Option Status := if digitOK digit then none else some .invalidDigit

/-- Step 5 of R81. -/
def setError (set : BitVec 16) : Option Status := if set.toNat ≤ 0x1FF then none else some .setTooLarge

/-- Step 6 of R81. -/
def indexError (index : BitVec 16) : Option Status := if bitIndexOK index then none else some .bitIndexOutOfRange

/-- Steps 3 to 6 of R81: the first operand check that fails, or none. -/
def operandError : Instr → Option Status
  | .new                  => none
  | .setc row col set     => (coordError row col).or (setError set)
  | .setd row col digit   => (coordError row col).or (digitError digit)
  | .getc row col         => coordError row col
  | .getd row col         => coordError row col
  | .commit row col digit => (coordError row col).or (digitError digit)
  | .clrbit index         => indexError index
  | .setbit index         => indexError index

/-- The whole of R81: a word is one command with valid operands or exactly one error status. -/
def decode (c : Cmd) : Except Status Instr :=
  match decodeCommand c with
  | .error e => .error e
  | .ok i =>
    match operandError i with
    | some e => .error e
    | none   => .ok i

/-- A word numbered as spec/opcode_table.json numbers it, as the 32-bit command word on the port. -/
def tableWord (nbits w : Nat) : Cmd := BitVec.ofNat 32 (w % 2 ^ nbits)

/-- What the decoder reads from a word of the opcode table. -/
def decodeTableWord (nbits w : Nat) : Option Instr :=
  match decodeCommand (tableWord nbits w) with
  | .ok i    => some i
  | .error _ => none

/-! ### Encoding (R68 to R72, R76) -/

/-- The opcode of an instruction (R76). -/
def Instr.opcode : Instr → Opcode
  | .new          => .new
  | .setc _ _ _   => .setc
  | .setd _ _ _   => .setd
  | .getc _ _     => .getc
  | .getd _ _     => .getd
  | .commit _ _ _ => .commit
  | .clrbit _     => .clrbit
  | .setbit _     => .setbit

/-- The operand bits 27:0 of an instruction, high field first: `ROW`, `COL`, `DIG`, `IMM`, with zeros where the format
has none (R68 to R72). -/
def Instr.operandBits : Instr → BitVec 28
  | .new                  => 0#28
  | .setc row col set     => row ++ col ++ 0#4 ++ set
  | .setd row col digit   => row ++ col ++ digit ++ 0#16
  | .getc row col         => row ++ col ++ 0#20
  | .getd row col         => row ++ col ++ 0#20
  | .commit row col digit => row ++ col ++ digit ++ 0#16
  | .clrbit index         => 0#12 ++ index
  | .setbit index         => 0#12 ++ index

/-- The word of an instruction. -/
def encode (i : Instr) : Cmd := i.opcode.code ++ i.operandBits

end Sys2Proof
end

