-- ==== Sys2Proof/Machine/Flags.lean ====
section
/-! DEFINITION. The engine has no flags (R37): "the outcome of a command is wholly in its own response". What stands
here in their place is the status code and the response word (R74, R75, R113). -/

namespace Sys2Proof.Machine

/-- The code of a status in `rsp[15:12]` (R113). Codes 7..15 are never produced. -/
def statusCode : Status → BitVec 4
  | .ok                  => 0#4
  | .ambiguousCandidates => 1#4
  | .invalidDigit        => 2#4
  | .setTooLarge         => 3#4
  | .invalidCoordinate   => 4#4
  | .bitIndexOutOfRange  => 5#4
  | .illegalCommand      => 6#4

/-- `respond(status, data)` produces `{status[3:0], 3'b0, data[8:0]}` (R74). -/
def responseWord (st : Status) (data : BitVec 9) : Rsp := statusCode st ++ 0#3 ++ data

/-- The `STATUS` field of a response, bits 15:12 (R74). -/
def statusField (r : Rsp) : BitVec 4 := r.extractLsb' 12 4

/-- The `DATA` field of a response, bits 8:0 (R74). -/
def dataField (r : Rsp) : BitVec 9 := r.extractLsb' 0 9

/-- Where GETD puts the digit: `DATA[3:0] = d`, `DATA[8:4] = 0` (R75, D28). -/
def digitData (d : Digit) : BitVec 9 := BitVec.ofNat 9 d.val

end Sys2Proof.Machine
end

