-- ==== Sys2Proof/Machine/State.lean ====
section
/-! DEFINITION. The state of the machine as plain data: the word array `M` (R31), the response port (R85, R86), the
parameter `W` it is built with (R7), and the host's side of a run (R141): what it will drive, the words accepted and the
responses taken since reset. The spec gives the engine nothing else (R36 to R41). -/

namespace Sys2Proof.Machine

/-- The word array `M`: `NWORDS` words of `W` bits (R31). Held as a fixed array of words, since `M` is not
byte-addressable (R57). DESIGN CHOICE, log entry 2, safe. -/
abbrev Store (w : Width) := Vector (BitVec w.bits) w.nwords

/-- Every word all ones: what `new()` and reset leave (R89, R129). -/
def freshStore (w : Width) : Store w := Vector.replicate w.nwords (BitVec.allOnes w.bits)

/-- What the host drives on the input ports in one round (R85): `rst`, `cmd_valid` and `cmd` (`some c` is
`cmd_valid = 1` with the word `c`), `rsp_ready`. A round is an edge at which the engine is not busy with a command:
DESIGN CHOICE, log entry 4. -/
structure HostInput where
  rst      : Bool
  cmd      : Option Cmd
  rspReady : Bool
deriving DecidableEq, Repr

/-- The machine's state. -/
structure State where
  /-- the elaboration parameter `W` (R7); no step changes it. DESIGN CHOICE, log entry 1, safe -/
  width    : Width
  /-- the word array `M` (R31) -/
  mem      : Store width
  /-- the response port: `none` is `rsp_valid = 0`, `some r` is `rsp_valid = 1` with the word `r` (R85, R86) -/
  rsp      : Option Rsp
  /-- what the host will drive, soonest first; the model's own field, log entry 4 -/
  inputs   : List HostInput
  /-- the command words accepted since reset, oldest first (R87); the model's own field, log entry 5 -/
  accepted : List Cmd
  /-- the response words taken since reset, oldest first (R87, R141); the model's own field, log entry 5 -/
  taken    : List Rsp
deriving DecidableEq, Repr

/-- Why the machine would stop. It never does: "there is no hang, no stuck state and no fault state in the model"
(R141), so the type has no constructor. An error of a command is a response (R15, R121). -/
inductive Fault where
deriving DecidableEq, Repr

/-- Why an instruction would have no meaning. -/
inductive Refusal where
  /-- an arm of `exec` not written yet; no arm is, so nothing raises it. Safe. -/
  | notModelled (mnemonic : String)
deriving DecidableEq, Repr

/-- The machine of word width `w` right after reset: `M` all ones, no response pending, nothing accepted or taken since
reset (R43, R129, R130), and a host that drives nothing yet. -/
def State.resetAt (w : Width) : State where
  width    := w
  mem      := freshStore w
  rsp      := none
  inputs   := []
  accepted := []
  taken    := []

/-- The machine right after reset at the default width (R7, R129). -/
def State.reset : State := State.resetAt Config.defaultWidth

end Sys2Proof.Machine
end

