-- ==== Sys2Proof/Machine/Ops.lean ====
section
/-! DEFINITION. The named operations over `M` and the response port: bit addressing (R44 to R47), the primitives
`BitClear`, `BitSet`, `MemRead`, `MemWrite` (R49 to R51), the field and elimination operations built from them, and
`respond` and `raise` (R15). Every access takes the proof that it is in range, so no word outside `M` can be named. -/

namespace Sys2Proof.Machine

variable {w : Width}

/-! ### From an index to a word and a bit -/

/-- `splitOffset(g) = (g / W, g % W)` (R44). -/
def splitOffset (w : Width) (g : Nat) : Nat × Nat := (g / w.bits, g % w.bits)

/-- `startWord` of an access at global bit `g` (R46). -/
def startWord (w : Width) (g : Nat) : Nat := (splitOffset w g).1

/-- `startBit` of an access at global bit `g` (R46). -/
def startBit (w : Width) (g : Nat) : Nat := (splitOffset w g).2

/-- `nLow = min(n, W - startBit)`: how many bits of the value lie in word `startWord` (R46). -/
def nLow (w : Width) (g n : Nat) : Nat := min n (w.bits - startBit w g)

/-- `nHigh = n - nLow`: how many bits lie in word `startWord + 1` (R46). -/
def nHigh (w : Width) (g n : Nat) : Nat := n - nLow w g n

/-- A field straddles two words when `nHigh > 0` (R47). -/
def straddles (w : Width) (g n : Nat) : Bool := decide (0 < nHigh w g n)

/-- The access of `n` bits at global bit `g` lies in the addressable bits, `g + n ≤ 729` (R46). -/
abbrev InRange (g n : Nat) : Prop := 0 < n ∧ g + n ≤ Config.totalBits

theorem bits_pos (w : Width) : 0 < w.bits := by cases w <;> decide

/-- `NWORDS` words hold at least the 729 bits of the fields (R8). -/
theorem totalBits_le (w : Width) : Config.totalBits ≤ w.nwords * w.bits := by cases w <;> decide

/-- The word of a bit of `M` exists. -/
theorem startWord_lt {g : Nat} (h : g < w.nwords * w.bits) : startWord w g < w.nwords :=
  Nat.div_lt_of_lt_mul (Nat.mul_comm w.nwords w.bits ▸ h)

theorem InRange.startWord_lt {g n : Nat} (h : InRange g n) : startWord w g < w.nwords :=
  Machine.startWord_lt (Nat.lt_of_lt_of_le (by omega : g < Config.totalBits) (totalBits_le w))

/-- "When `nHigh > 0`, word `startWord+1` exists" (R46). -/
theorem InRange.nextWord_lt {g n : Nat} (h : InRange g n) (hh : nHigh w g n ≠ 0) : startWord w g + 1 < w.nwords := by
  have := totalBits_le w
  simp only [nHigh, nLow, startBit, startWord, splitOffset] at *
  cases w <;> simp only [Width.nwords, Width.bits, InRange, Config.totalBits, Config.ncells, Config.gridWidth,
    Config.gridHeight, Config.fieldBits] at * <;> omega

/-- Each single bit of an in-range access is an in-range access (R55). -/
theorem InRange.single {g n k : Nat} (h : InRange g n) (hk : k < n) : InRange (g + k) 1 :=
  ⟨by decide, by have := h.2; omega⟩

/-! ### The primitives -/

/-- `ones(n) = 2^n - 1` seen in `N` bits (R13). -/
def ones (N n : Nat) : BitVec N := BitVec.ofNat N (2 ^ n - 1)

/-- Global bit `g`: bit `g % W` of word `g / W` (R44). No command reads it; laws are stated through it. -/
def bit (m : Store w) (g : Nat) (h : g < w.nwords * w.bits) : Bool :=
  (m[startWord w g]'(startWord_lt h)).getLsbD (startBit w g)

/-- `BitClear(g)`: `M[w] <- M[w] & not_W(1 << b)` (R49). -/
def bitClear (m : Store w) (g : Nat) (h : g < w.nwords * w.bits) : Store w :=
  m.set (startWord w g) (m[startWord w g]'(startWord_lt h) &&& ~~~(1#w.bits <<< startBit w g)) (startWord_lt h)

/-- `BitSet(g)`: `M[w] <- M[w] | (1 << b)` (R49). -/
def bitSet (m : Store w) (g : Nat) (h : g < w.nwords * w.bits) : Store w :=
  m.set (startWord w g) (m[startWord w g]'(startWord_lt h) ||| (1#w.bits <<< startBit w g)) (startWord_lt h)

/-- `MemRead(g, n)` (R50): the low part from `startWord`, and the high part from `startWord + 1` only when the access
straddles. -/
def memRead (m : Store w) (g n : Nat) (h : InRange g n) : BitVec n :=
  let lo := ((m[startWord w g]'h.startWord_lt >>> startBit w g) &&& ones w.bits (nLow w g n)).setWidth n
  if hh : nHigh w g n = 0 then lo
  else
    let hi := (m[startWord w g + 1]'(h.nextWord_lt hh) &&& ones w.bits (nHigh w g n)).setWidth n
    lo ||| (hi <<< nLow w g n)

/-- What `MemWrite` leaves in word `startWord` (R51). -/
def lowWord (old : BitVec w.bits) (g n : Nat) (v : BitVec n) : BitVec w.bits :=
  (old &&& ~~~(ones w.bits (nLow w g n) <<< startBit w g)) |||
    ((v &&& ones n (nLow w g n)).setWidth w.bits <<< startBit w g)

/-- What a straddling `MemWrite` leaves in word `startWord + 1` (R51). -/
def highWord (old : BitVec w.bits) (g n : Nat) (v : BitVec n) : BitVec w.bits :=
  (old &&& ~~~(ones w.bits (nHigh w g n))) ||| (v >>> nLow w g n).setWidth w.bits

/-- `MemWrite(g, n, v)` (R51): each part is masked so that neighbouring bits stay; word `startWord + 1` is touched only
when the access straddles. -/
def memWrite (m : Store w) (g n : Nat) (v : BitVec n) (h : InRange g n) : Store w :=
  let m' := m.set (startWord w g) (lowWord (m[startWord w g]'h.startWord_lt) g n v) h.startWord_lt
  if hh : nHigh w g n = 0 then m'
  else m'.set (startWord w g + 1) (highWord (m'[startWord w g + 1]'(h.nextWord_lt hh)) g n v) (h.nextWord_lt hh)

/-! ### Fields, single bits and elimination -/

theorem Cell.inRange (p : Cell) : InRange p.offset 9 := ⟨by decide, p.offset_add_nine_le⟩

theorem BitIndex.lt_bits (w : Width) (g : BitIndex) : g.val < w.nwords * w.bits := Nat.lt_of_lt_of_le g.isLt (totalBits_le w)

/-- The candidate set of a cell, `MemRead((row*9+col)*9, 9)` (R32). -/
def readField (m : Store w) (p : Cell) : CandidateSet := memRead m p.offset 9 (Cell.inRange p)

/-- The field write `MemWrite((row*9+col)*9, 9, v)` (R90). -/
def writeField (m : Store w) (p : Cell) (v : CandidateSet) : Store w := memWrite m p.offset 9 v (Cell.inRange p)

/-- `BitClear` at an index a command may name (R101). -/
def clearIndex (m : Store w) (g : BitIndex) : Store w := bitClear m g.val (BitIndex.lt_bits w g)

/-- `BitSet` at an index a command may name (R102). -/
def setIndex (m : Store w) (g : BitIndex) : Store w := bitSet m g.val (BitIndex.lt_bits w g)

/-- Clear Digit `d`'s bit in the fields of the listed cells, in their order (R94, R95). -/
def eliminate (m : Store w) (d : Digit) (qs : List Cell) : Store w := qs.foldl (fun m q => clearIndex m (q.bitOf d)) m

/-- The propagation step: erase `d` from every peer of `p`, then write `{d}` to `p` (R94). -/
def commitStore (m : Store w) (p : Cell) (d : Digit) : Store w := writeField (eliminate m d (peers p)) p (fromDigit d)

/-- The candidate set of a cell of the machine, `cand(row, col)` (R32). -/
def State.cand (s : State) (p : Cell) : CandidateSet := readField s.mem p

/-! ### Responses -/

/-- What a step gives. -/
abbrev Result := Host.Outcome State Fault Refusal

/-- `M` replaced, all else kept. -/
def State.withMem (s : State) (m : Store s.width) : State := { s with mem := m }

/-- The response word put on the response port (R15, R86). -/
def State.withRsp (s : State) (r : Rsp) : State := { s with rsp := some r }

/-- `respond(status, data)`: the command ends with this one response (R15, R74). -/
def respond (st : Status) (data : BitVec 9) (s : State) : Result := .next (s.withRsp (responseWord st data))

/-- `raise <Status>()`: "`respond(<Status>, 0)`, and end the command" with no state change (R15, R120). The engine's only
form of an exception: nothing is saved and control goes nowhere (R121), and there is no return from it (R123). -/
def raise (st : Status) (s : State) : Result := respond st 0#9 s

/-- Go on with a constructed operand, or raise the status of its failed construction (R73, R81). -/
def checked {α : Type} (r : Except Status α) (s : State) (k : α → Result) : Result :=
  match r with
  | .error e => raise e s
  | .ok a    => k a

end Sys2Proof.Machine
end

