-- ==== Sys2Proof/Machine/BitPrim.lean ====
section
/-! DEFINITION. Single-bit primitives: CLRBIT (R101) and SETBIT (R102). -/

namespace Sys2Proof.Machine

/-- CLRBIT (R101): `BitIndexOutOfRange` above 728, else the global bit becomes 0. -/
def execClrbit (index : BitVec 16) (s : State) : Result :=
  checked (BitIndex.construct index) s fun g =>
  respond .ok 0#9 (s.withMem (clearIndex s.mem g))

/-- SETBIT (R102): `BitIndexOutOfRange` above 728, else the global bit becomes 1. -/
def execSetbit (index : BitVec 16) (s : State) : Result :=
  checked (BitIndex.construct index) s fun g =>
  respond .ok 0#9 (s.withMem (setIndex s.mem g))

end Sys2Proof.Machine
end

