-- ==== Sys2Proof/Machine/Commit.lean ====
section
/-! DEFINITION. The elimination propagator: COMMIT (R94 to R100). -/

namespace Sys2Proof.Machine

/-- COMMIT (R94): `InvalidCoordinate`, then `InvalidDigit`, else the digit is erased from the 20 peers and the cell is
written as its singleton, whatever it held (R97). Always `OK` once the operands are valid (R100). -/
def execCommit (row col digit : BitVec 4) (s : State) : Result :=
  checked (Cell.construct row col) s fun p =>
  checked (Digit.construct digit) s fun d =>
  respond .ok 0#9 (s.withMem (commitStore s.mem p d))

end Sys2Proof.Machine
end

