-- ==== Sys2Proof/Machine/FieldRead.lean ====
section
/-! DEFINITION. Field reads: GETC (R92) and GETD (R93). Neither writes `M`. -/

namespace Sys2Proof.Machine

/-- GETC (R92): `InvalidCoordinate`, else the cell's candidate set. -/
def execGetc (row col : BitVec 4) (s : State) : Result :=
  checked (Cell.construct row col) s fun p =>
  respond .ok (s.cand p) s

/-- GETD (R93): `InvalidCoordinate`, then `AmbiguousCandidates` when the set does not have exactly one bit, else the
digit. -/
def execGetd (row col : BitVec 4) (s : State) : Result :=
  checked (Cell.construct row col) s fun p =>
  checked (toDigit (s.cand p)) s fun d =>
  respond .ok (digitData d) s

end Sys2Proof.Machine
end

