-- ==== Sys2Proof/Machine/FieldWrite.lean ====
section
/-! DEFINITION. Field writes: SETC (R90) and SETD (R91). -/

namespace Sys2Proof.Machine

/-- SETC (R90): `InvalidCoordinate`, then `SetTooLarge`, else the set is written to the cell's field. -/
def execSetc (row col : BitVec 4) (set : BitVec 16) (s : State) : Result :=
  checked (Cell.construct row col) s fun p =>
  checked (CandidateSet.construct set) s fun v =>
  respond .ok 0#9 (s.withMem (writeField s.mem p v))

/-- SETD (R91): `InvalidCoordinate`, then `InvalidDigit`, else the singleton set of the digit is written to the cell's
field. Nothing is erased from the peers. -/
def execSetd (row col digit : BitVec 4) (s : State) : Result :=
  checked (Cell.construct row col) s fun p =>
  checked (Digit.construct digit) s fun d =>
  respond .ok 0#9 (s.withMem (writeField s.mem p (fromDigit d)))

end Sys2Proof.Machine
end

