-- ==== Sys2Proof/Machine/Init.lean ====
section
/-! DEFINITION. Store initialisation: NEW (R89). -/

namespace Sys2Proof.Machine

/-- NEW (R89): every word of `M` becomes all ones, tail padding included; responds `OK`, 0. -/
def execNew (s : State) : Result := respond .ok 0#9 (s.withMem (freshStore s.width))

end Sys2Proof.Machine
end

