-- ==== Sys2Proof/Machine/Dispatch.lean ====
section
/-! DEFINITION. One arm for each command; its rule stands at the meaning it calls (R89 to R102). -/

namespace Sys2Proof.Machine

def exec (i : Instr) (s : State) : Host.Outcome State Fault Refusal :=
  match i with
  | .new => Sys2Proof.Machine.execNew s
  | .setc row col set => Sys2Proof.Machine.execSetc row col set s
  | .setd row col digit => Sys2Proof.Machine.execSetd row col digit s
  | .getc row col => Sys2Proof.Machine.execGetc row col s
  | .getd row col => Sys2Proof.Machine.execGetd row col s
  | .commit row col digit => Sys2Proof.Machine.execCommit row col digit s
  | .clrbit index => Sys2Proof.Machine.execClrbit index s
  | .setbit index => Sys2Proof.Machine.execSetbit index s

end Sys2Proof.Machine
end

