-- ==== Sys2Proof/Machine/Port.lean ====
section
/-! DEFINITION. The ports (R85 to R87) and reset (R129, R130): the engine's output signals as functions of the state, what
happens at the ports in a round, and the state changes of each event but the execution of a command. -/

namespace Sys2Proof.Machine

/-- `rsp_valid`: a response is waiting and the engine is not in reset (R86, R129). -/
def State.rspValid (s : State) (rst : Bool) : Bool := !rst && s.rsp.isSome

/-- `cmd_ready`: no command is in the engine and no response waits, and the engine is not in reset (R86, R129). -/
def State.cmdReady (s : State) (rst : Bool) : Bool := !rst && s.rsp.isNone

/-- What happens at the ports in a round. -/
inductive PortEvent where
  /-- `rst = 1`: the engine is in reset (R129) -/
  | reset
  /-- `rsp_valid = 1` and `rsp_ready = 1`: the host takes the response (R86) -/
  | take
  /-- `cmd_valid = 1`, `cmd_ready = 1` and `rst = 0`: the engine accepts the word (R86) -/
  | accept (c : Cmd)
  /-- no transfer -/
  | nothing
deriving DecidableEq, Repr

/-- The event of a round (R86, R129). A take and an acceptance exclude each other: one needs a waiting response, the
other its absence. -/
def State.portEvent (s : State) (inp : HostInput) : PortEvent :=
  if inp.rst then .reset
  else if s.rspValid inp.rst && inp.rspReady then .take
  else
    match inp.cmd with
    | none   => .nothing
    | some c => if s.cmdReady inp.rst then .accept c else .nothing

/-- The round's input is consumed. -/
def State.dropInput (s : State) : State := { s with inputs := s.inputs.tail }

/-- Reset: "an event that maps any state to the all-ones state and empties the interface" (R130). Counting of commands
and responses starts again; the host goes on with what it will drive next. -/
def State.applyReset (s : State) : State := { State.resetAt s.width with inputs := s.inputs }

/-- The waiting response leaves the port (R86). -/
def State.takeResponse (s : State) : State :=
  match s.rsp with
  | none   => s
  | some r => { s with rsp := none, taken := s.taken ++ [r] }

/-- The accepted word is counted (R87). -/
def State.recordAccepted (s : State) (c : Cmd) : State := { s with accepted := s.accepted ++ [c] }

/-- A round in which the host offers the word `c` and nothing else. -/
def offer (c : Cmd) : HostInput := { rst := false, cmd := some c, rspReady := false }

/-- A round in which the host is only ready to take a response. -/
def takeRound : HostInput := { rst := false, cmd := none, rspReady := true }

/-- A round in which the host drives reset. -/
def resetRound : HostInput := { rst := true, cmd := none, rspReady := false }

end Sys2Proof.Machine
end

