-- ==== Sys2Proof/Machine/Run.lean ====
section
/-! DEFINITION. The engine's step on a command word, `step : State × Cmd32 → State × Rsp16` (R11), and runs over a list
of words (R141). -/

namespace Sys2Proof.Machine

/-- One command word executed (R11, R81): an illegal word answers `IllegalCommand` (R77, R78), any other runs its
command, whose meaning checks its operands. The response is left on the response port. -/
def execute (c : Cmd) (s : State) : Result :=
  match decodeCommand c with
  | .error e => raise e s
  | .ok i    => exec i s

/-- A word accepted at the command port: counted, then executed (R86, R87). -/
def accept (c : Cmd) (s : State) : Result := execute c (s.recordAccepted c)

/-- The host takes the response still waiting, if any, without which no word is accepted (R86), sends a word and takes
its response (R87). -/
def issue (c : Cmd) (s : State) : Result :=
  match accept c s.takeResponse with
  | .next t    => .next t.takeResponse
  | .fault f   => .fault f
  | .refused r => .refused r

/-- The words issued one after another, each to completion before the next (R61, R141). -/
def issueAll : List Cmd → State → Result
  | [], s => .next s
  | c :: cs, s =>
    match issue c s with
    | .next t    => issueAll cs t
    | .fault f   => .fault f
    | .refused r => .refused r

end Sys2Proof.Machine
end

