-- ==== Sys2Proof/Machine/Step.lean ====
section
/-! DEFINITION. One step of the machine: one round at the ports (log entry 4). -/

namespace Sys2Proof.Machine

/-- One round: the host's next input is consumed and the event it makes at the ports happens (R86, R129). A host that
drives nothing more leaves the engine idle (R127). -/
def step (s : State) : Host.Outcome State Fault Refusal :=
  match s.inputs with
  | [] => .next s
  | inp :: _ =>
    match s.portEvent inp with
    | .reset    => .next s.dropInput.applyReset
    | .take     => .next s.dropInput.takeResponse
    | .accept c => accept c s.dropInput
    | .nothing  => .next s.dropInput

/-- The word `w` offered by the host in the next round, with the response port empty so that it is accepted then. The
engine fetches nothing (R40): this stands for the host's presenting the word. Log entry 6. -/
def State.withFetchWord (s : State) (nbits w : Nat) : State :=
  { s with rsp := none, inputs := offer (tableWord nbits w) :: s.inputs }

end Sys2Proof.Machine
end

