-- ==== Sys2Proof/Machine/Assembler.lean ====
section
/-! DEFINITION. The textual command syntax (R82, R83): a line of a listing to the word it stands for. A line is a list of
characters. Out-of-range operands are assembled as written; one that does not fit its field is an assembly error. The
points the spec does not say (which characters are white space, blank lines) are in log entry 10. -/

namespace Sys2Proof.Machine

/-- A space or a tab. -/
def isBlankChar (c : Char) : Bool := c == ' ' || c == '\t'

/-- A token without the white space around it. -/
def trimChars (cs : List Char) : List Char := ((cs.dropWhile isBlankChar).reverse.dropWhile isBlankChar).reverse

/-- The line without its comment: "`;` starts a comment" (R82). -/
def dropComment (cs : List Char) : List Char := cs.takeWhile (· != ';')

/-- The comma-separated pieces of an operand list, the piece being read held in reverse. -/
def splitCommas : List Char → List Char → List (List Char)
  | acc, []      => [acc.reverse]
  | acc, c :: cs => if c == ',' then acc.reverse :: splitCommas [] cs else splitCommas (c :: acc) cs

/-- The value of a digit character in a base up to 16. -/
def digitValue (base : Nat) (c : Char) : Option Nat :=
  let n := c.toNat
  let v :=
    if 0x30 ≤ n ∧ n ≤ 0x39 then some (n - 0x30)
    else if 0x41 ≤ n ∧ n ≤ 0x46 then some (n - 0x41 + 10)
    else if 0x61 ≤ n ∧ n ≤ 0x66 then some (n - 0x61 + 10)
    else none
  v.filter (· < base)

/-- A number from its digits, most significant first; at least one digit. -/
def parseDigits (base : Nat) (cs : List Char) : Option Nat :=
  if cs.isEmpty then none
  else cs.foldl (fun acc c => acc.bind fun a => (digitValue base c).map fun d => a * base + d) (some 0)

/-- "Operands are unsigned decimal or `0x` hexadecimal numbers" (R82). -/
def parseNumber : List Char → Option Nat
  | '0' :: 'x' :: cs => parseDigits 16 cs
  | cs               => parseDigits 10 cs

/-- A digit operand: a number, or a character literal `'1'..'9'`, which is the Digit `ch - '1'` (R83). -/
def parseDigitOperand : List Char → Option Nat
  | ['\'', c, '\''] => if 0x31 ≤ c.toNat ∧ c.toNat ≤ 0x39 then some (c.toNat - 0x31) else none
  | cs              => parseNumber cs

/-- A number as an `n`-bit field; one that does not fit is an assembly error (R83). -/
def fitField (n v : Nat) : Option (BitVec n) := if v < 2 ^ n then some (BitVec.ofNat n v) else none

/-- A mnemonic, "upper case" (R82), as its opcode. -/
def parseMnemonic : List Char → Option Opcode
  | ['N', 'E', 'W']                => some .new
  | ['S', 'E', 'T', 'C']           => some .setc
  | ['S', 'E', 'T', 'D']           => some .setd
  | ['G', 'E', 'T', 'C']           => some .getc
  | ['G', 'E', 'T', 'D']           => some .getd
  | ['C', 'O', 'M', 'M', 'I', 'T'] => some .commit
  | ['C', 'L', 'R', 'B', 'I', 'T'] => some .clrbit
  | ['S', 'E', 'T', 'B', 'I', 'T'] => some .setbit
  | _                              => none

/-- A 4-bit number operand. -/
def operand4 (cs : List Char) : Option (BitVec 4) := (parseNumber cs).bind (fitField 4)

/-- A 4-bit digit operand. -/
def operandDigit (cs : List Char) : Option (BitVec 4) := (parseDigitOperand cs).bind (fitField 4)

/-- A 16-bit number operand. -/
def operand16 (cs : List Char) : Option (BitVec 16) := (parseNumber cs).bind (fitField 16)

/-- The instruction of a mnemonic and its operands, "row before column" (R82). -/
def assembleInstr : Opcode → List (List Char) → Option Instr
  | .new,    [[]]      => some .new
  | .setc,   [r, c, s] => do return .setc (← operand4 r) (← operand4 c) (← operand16 s)
  | .setd,   [r, c, d] => do return .setd (← operand4 r) (← operand4 c) (← operandDigit d)
  | .getc,   [r, c]    => do return .getc (← operand4 r) (← operand4 c)
  | .getd,   [r, c]    => do return .getd (← operand4 r) (← operand4 c)
  | .commit, [r, c, d] => do return .commit (← operand4 r) (← operand4 c) (← operandDigit d)
  | .clrbit, [g]       => do return .clrbit (← operand16 g)
  | .setbit, [g]       => do return .setbit (← operand16 g)
  | _,       _         => none

/-- One line: `none` is an assembly error, `some none` a line with no command, `some (some c)` the word `c` (R82,
R83). -/
def assembleLine (line : List Char) : Option (Option Cmd) :=
  let text := trimChars (dropComment line)
  if text.isEmpty then some none
  else
    let mnemonic := text.takeWhile (fun c => !isBlankChar c)
    let operands := (splitCommas [] (text.dropWhile (fun c => !isBlankChar c))).map trimChars
    ((parseMnemonic mnemonic).bind fun op => assembleInstr op operands).map fun i => some (encode i)

/-- A listing, "one command per line" (R82): the words in order, or `none` when a line is in error. -/
def assemble : List (List Char) → Option (List Cmd)
  | []      => some []
  | l :: ls => (assembleLine l).bind fun c => (assemble ls).map fun cs => c.toList ++ cs

end Sys2Proof.Machine
end

