-- ==== Sys2Proof/Machine/HostSequences.lean ====
section
/-! DEFINITION. The host's elimination driver, the pseudo-instruction SOLVE (R84, R104 to R109). "Nothing in this file is
hardware": it is a host procedure that issues commands to the engine and reads its responses. -/

namespace Sys2Proof.Machine

/-- A grid of characters, 9 rows of 9, `grid[row][col]` (R106). It belongs to the host and is never part of State. -/
abbrev Grid := Cell → Char

/-- The Digit of a character `'1'..'9'`, `ch - '1'`; any other character is `InvalidDigit` (R105, R115). -/
def Digit.ofChar (ch : Char) : Except Status Digit :=
  if h : 0x31 ≤ ch.toNat ∧ ch.toNat ≤ 0x39 then .ok ⟨ch.toNat - 0x31, by omega⟩ else .error .invalidDigit

/-- The character of a Digit, `'1' + d` (R17, R105). -/
def Digit.toChar (d : Digit) : Char := Char.ofNat (0x31 + d.val)

/-- The 81 cells in row-major order, the order of both passes (R107). -/
def cellsRowMajor : List Cell := nine.flatMap fun r => nine.map fun c => ⟨r, c⟩

/-- A coordinate or a Digit as the 4-bit field of a command (R19, R73). -/
def field4 (x : Fin 9) : BitVec 4 := BitVec.ofNat 4 x.val

/-- `COMMIT row, col, digit` at a cell. -/
def commitInstr (p : Cell) (d : Digit) : Instr := .commit (field4 p.row) (field4 p.col) (field4 d)

/-- `GETD row, col` at a cell. -/
def getdInstr (p : Cell) : Instr := .getd (field4 p.row) (field4 p.col)

/-- The command word of `COMMIT row, col, digit`. -/
def commitWord (p : Cell) (d : Digit) : Cmd := encode (commitInstr p d)

/-- The command word of `GETD row, col`. -/
def getdWord (p : Cell) : Cmd := encode (getdInstr p)

/-- The cells that hold `'1'..'9'`, each with its Digit, in row-major order; blank and invalid characters are skipped
(R104, R106). -/
def prefilled (grid : Grid) : List (Cell × Digit) :=
  cellsRowMajor.filterMap fun p =>
    match Digit.ofChar (grid p) with
    | .ok d    => some (p, d)
    | .error _ => none

/-- The input pass: one COMMIT for each pre-filled cell (R104). -/
def inputPass (grid : Grid) : List Cmd := (prefilled grid).map fun pd => commitWord pd.1 pd.2

/-- The output pass: one GETD for each cell (R104). -/
def outputPass : List Cmd := cellsRowMajor.map getdWord

/-- The commands of `SOLVE grid`: NEW, the input pass, the output pass; "the two passes are not interleaved" (R104,
R107). -/
def solveCommands (grid : Grid) : List Cmd := encode .new :: (inputPass grid ++ outputPass)

/-- The character the host writes for the response to a GETD: `'1' + DATA[3:0]` when `STATUS = OK`, else the blank
(R104). -/
def readBack (r : Rsp) : Char :=
  if statusField r = statusCode .ok then Char.ofNat (0x31 + (r.extractLsb' 0 4).toNat) else Config.blank

/-- The output grid from the responses of the output pass, which come in row-major order (R87, R107). -/
def gridOfResponses (rs : List Rsp) : Grid := fun p =>
  match rs[p.index]? with
  | some r => readBack r
  | none   => Config.blank

/-- `SOLVE grid` on the engine in state `s`: the state it leaves and the output grid; `none` only if the engine stopped,
which it never does (R141). The last 81 responses taken are those of the output pass. -/
def solve (grid : Grid) (s : State) : Option (State × Grid) :=
  match issueAll (solveCommands grid) s with
  | .next t => some (t, gridOfResponses (t.taken.drop (t.taken.length - Config.ncells)))
  | _       => none

end Sys2Proof.Machine
end

