-- ==== Sys2Proof/Safety.lean ====
section
/-! DEFINITION. What the claims call a good state: the tail padding is intact (R33), and the port's history is that of the
accepted words executed one by one from reset (R61, R87, R141). -/

namespace Sys2Proof.Machine

theorem padding_lt_bits (w : Width) (k : Fin w.pad) : Config.totalBits + k.val < w.nwords * w.bits :=
  Nat.add_comm _ _ ▸ Nat.add_lt_of_lt_sub k.isLt

/-- The canonical form of `M`: every tail padding bit is 1 (R33, R139). Among stores of this form "`M` [is] a function of
the 81 sets" (D7). -/
abbrev Memory.wf {w : Width} (m : Store w) : Prop :=
  ∀ k : Fin w.pad, bit m (Config.totalBits + k.val) (padding_lt_bits w k) = true

/-- The state with nothing waiting on the response port and the host's further drives left out: what R141 calls the
outcome of a run, once every response has been taken. -/
def State.settled (s : State) : State := { s.takeResponse with inputs := [] }

/-- The state is what issuing the accepted words, in order and one at a time, leaves of the machine after reset (R61,
R87, R141). -/
def State.Faithful (s : State) : Prop := issueAll s.accepted (State.resetAt s.width) = .next s.settled

/-- A response word that the engine can produce: a status code 0..6 and bits 11:9 zero, with `DATA = 0` unless the
status is `OK` (R74, R75). -/
def WellFormedResponse (r : Rsp) : Prop :=
  r.extractLsb' 9 3 = 0#3 ∧ (statusField r).toNat ≤ 6 ∧ (statusField r ≠ 0#4 → dataField r = 0#9)

/-- Every response waiting or taken is one the engine can produce. -/
def State.ResponsesWellFormed (s : State) : Prop := ∀ r ∈ s.taken ++ s.rsp.toList, WellFormedResponse r

/-- Some word with the opcode number `op`, in some state, is answered with the status `st` (R128). -/
def CanAnswer (op : Nat) (st : Status) : Prop :=
  ∃ (c : Cmd) (s t : State) (r : Rsp),
    (opField c).toNat = op ∧ execute c s = .next t ∧ t.rsp = some r ∧ statusField r = statusCode st

/-- Two machines, of one word width or of two, that hold the same candidate sets and the same at their ports: "the same
cell-level behaviour for every such `W`" (R7). -/
def SameCells (s t : State) : Prop :=
  (∀ p, s.cand p = t.cand p) ∧ s.rsp = t.rsp ∧ s.inputs = t.inputs ∧ s.accepted = t.accepted ∧ s.taken = t.taken

end Sys2Proof.Machine
end

