-- ==== Sys2Proof/WellFormed.lean ====
section
/-! DEFINITION. When an instruction's operands are valid, stated on the fields: coordinates and digits are 0..8 (R18,
R28), a raw candidate set is at most `0x1FF` (R20), a bit index is at most 728 (R101). Every field of an instruction is
held at its encoded width, so nothing else can be ill-formed. -/

namespace Sys2Proof

/-- Every operand is in its range (R73). -/
abbrev Instr.WellFormed : Instr → Prop
  | .new                  => True
  | .setc row col set     => row.toNat ≤ 8 ∧ col.toNat ≤ 8 ∧ set.toNat ≤ 0x1FF
  | .setd row col digit   => row.toNat ≤ 8 ∧ col.toNat ≤ 8 ∧ digit.toNat ≤ 8
  | .getc row col         => row.toNat ≤ 8 ∧ col.toNat ≤ 8
  | .getd row col         => row.toNat ≤ 8 ∧ col.toNat ≤ 8
  | .commit row col digit => row.toNat ≤ 8 ∧ col.toNat ≤ 8 ∧ digit.toNat ≤ 8
  | .clrbit index         => index.toNat ≤ 728
  | .setbit index         => index.toNat ≤ 728

end Sys2Proof
end

