-- ==== Sys2Proof/Certificates/Slice0/Obligations.lean ====
section
/-! DEFINITION. The statements for the provers, from the spec's numbered rules. Operands are quantified at their encoded
widths; a cell `p`, digit `d`, set `v` or index `g` is tied to them by its number. A next state is written out field by
field, so each statement of an instruction's result is also its frame: `width`, `inputs`, `accepted` and `taken` stay, and
of `M` exactly the bits named change. -/

open Sys2Proof Sys2Proof.Machine

/-! ### Encoding and decoding -/

/-- R88: the spec's ten example words, read and written. -/
def Obligations.DecodesTheSpecsExampleWords : Prop :=
  ∀ e ∈ [(0x10000000#32, Instr.new), (0x207000AA#32, Instr.setc 0 7 0x0AA), (0x288001FF#32, Instr.setc 8 8 0x1FF),
      (0x34480000#32, Instr.setd 4 4 8), (0x40100000#32, Instr.getc 0 1), (0x50000000#32, Instr.getd 0 0),
      (0x60040000#32, Instr.commit 0 0 4), (0x68800000#32, Instr.commit 8 8 0), (0x7000000D#32, Instr.clrbit 13),
      (0x800002D8#32, Instr.setbit 728)],
    decode e.1 = .ok e.2 ∧ encode e.2 = e.1

/-- R68 to R72, R76: no bit of an encoding is dropped, for every command at every value of its fields; and a command with
valid operands passes the operand checks too. -/
def Obligations.DecodeOfEncode : Prop :=
  ∀ i : Instr, decodeCommand (encode i) = .ok i ∧ (i.WellFormed → decode (encode i) = .ok i)

/-- R76: each command has one encoding; a word that decodes is the encoding of what it decodes to. -/
def Obligations.EncodeOfDecode : Prop :=
  ∀ (c : Cmd) (i : Instr), decodeCommand c = .ok i → encode i = c

/-- R76, with the fields of R67 and R73: a word is a command's encoding "exactly when `c & mask = match`", and its
operands are the bits of the word; "a word that matches none is illegal". -/
def Obligations.WordIsACommandExactlyWhenItsMaskMatches : Prop :=
  ∀ c : Cmd,
    (c &&& 0xFFFFFFFF#32 = 0x10000000#32 ↔ decodeCommand c = .ok .new) ∧
    (c &&& 0xF00F0000#32 = 0x20000000#32 ↔
      decodeCommand c = .ok (.setc (c.extractLsb' 24 4) (c.extractLsb' 20 4) (c.extractLsb' 0 16))) ∧
    (c &&& 0xF000FFFF#32 = 0x30000000#32 ↔
      decodeCommand c = .ok (.setd (c.extractLsb' 24 4) (c.extractLsb' 20 4) (c.extractLsb' 16 4))) ∧
    (c &&& 0xF00FFFFF#32 = 0x40000000#32 ↔
      decodeCommand c = .ok (.getc (c.extractLsb' 24 4) (c.extractLsb' 20 4))) ∧
    (c &&& 0xF00FFFFF#32 = 0x50000000#32 ↔
      decodeCommand c = .ok (.getd (c.extractLsb' 24 4) (c.extractLsb' 20 4))) ∧
    (c &&& 0xF000FFFF#32 = 0x60000000#32 ↔
      decodeCommand c = .ok (.commit (c.extractLsb' 24 4) (c.extractLsb' 20 4) (c.extractLsb' 16 4))) ∧
    (c &&& 0xFFFF0000#32 = 0x70000000#32 ↔ decodeCommand c = .ok (.clrbit (c.extractLsb' 0 16))) ∧
    (c &&& 0xFFFF0000#32 = 0x80000000#32 ↔ decodeCommand c = .ok (.setbit (c.extractLsb' 0 16))) ∧
    ((∀ i, decodeCommand c ≠ .ok i) → decodeCommand c = .error .illegalCommand)

/-- R77, R78: a word with a reserved opcode, whatever its other bits, or with a must-be-zero bit set, is answered
`0x6000` and changes nothing. The number `op` is the `OP` field, bits 31:28. -/
def Obligations.IllegalWordsAnswerIllegalCommand : Prop :=
  ∀ (c : Cmd) (s : State) (op : Nat), (c.extractLsb' 28 4).toNat = op →
    (op = 0 ∨ 9 ≤ op ∨
      (op = 1 ∧ c &&& 0x0FFFFFFF#32 ≠ 0#32) ∨
      (op = 2 ∧ c &&& 0x000F0000#32 ≠ 0#32) ∨
      ((op = 3 ∨ op = 6) ∧ c &&& 0x0000FFFF#32 ≠ 0#32) ∨
      ((op = 4 ∨ op = 5) ∧ c &&& 0x000FFFFF#32 ≠ 0#32) ∨
      ((op = 7 ∨ op = 8) ∧ c &&& 0x0FFF0000#32 ≠ 0#32)) →
    execute c s = .next { s with rsp := some 0x6000#16 }

/-- R81: decoding is total, by these checks in this order, the first failure deciding; execution answers the failed
check, or runs the command; past decoding the only error is `AmbiguousCandidates`, from GETD. -/
def Obligations.DecodeRunsTheChecksInOrder : Prop :=
  (∀ (c : Cmd) (op : Nat), (c.extractLsb' 28 4).toNat = op →
    decode c =
      if op = 0 ∨ 9 ≤ op then .error .illegalCommand
      else if ¬ ((op = 1 ∧ c &&& 0xFFFFFFFF#32 = 0x10000000#32) ∨ (op = 2 ∧ c &&& 0xF00F0000#32 = 0x20000000#32) ∨
          (op = 3 ∧ c &&& 0xF000FFFF#32 = 0x30000000#32) ∨ (op = 4 ∧ c &&& 0xF00FFFFF#32 = 0x40000000#32) ∨
          (op = 5 ∧ c &&& 0xF00FFFFF#32 = 0x50000000#32) ∨ (op = 6 ∧ c &&& 0xF000FFFF#32 = 0x60000000#32) ∨
          (op = 7 ∧ c &&& 0xFFFF0000#32 = 0x70000000#32) ∨ (op = 8 ∧ c &&& 0xFFFF0000#32 = 0x80000000#32))
        then .error .illegalCommand
      else if (2 ≤ op ∧ op ≤ 6) ∧ (8 < (c.extractLsb' 24 4).toNat ∨ 8 < (c.extractLsb' 20 4).toNat)
        then .error .invalidCoordinate
      else if (op = 3 ∨ op = 6) ∧ 8 < (c.extractLsb' 16 4).toNat then .error .invalidDigit
      else if op = 2 ∧ 0x1FF < (c.extractLsb' 0 16).toNat then .error .setTooLarge
      else if (op = 7 ∨ op = 8) ∧ 728 < (c.extractLsb' 0 16).toNat then .error .bitIndexOutOfRange
      else decodeCommand c) ∧
  (∀ (c : Cmd) (s : State),
    execute c s =
      match decode c with
      | .error e => .next { s with rsp := some (responseWord e 0#9) }
      | .ok i    => exec i s) ∧
  (∀ (c : Cmd) (i : Instr) (s t : State) (r : Rsp), decode c = .ok i → execute c s = .next t → t.rsp = some r →
    statusField r = 0#4 ∨ (statusField r = 1#4 ∧ (c.extractLsb' 28 4).toNat = 5))

/-! ### The step and the ports -/

/-- R61, R86, R87: a word offered on an empty response port, outside reset, is accepted, and when it decodes to a command
the step is that command's execution, the word counted and the round's input consumed. Rounds and the count are the model's
own (log entries 4 and 5). -/
def Obligations.StepRunsTheDecodedInstruction : Prop :=
  ∀ (s : State) (c : Cmd) (i : Instr) (ready : Bool) (rest : List HostInput),
    s.inputs = { rst := false, cmd := some c, rspReady := ready } :: rest → s.rsp = none → decodeCommand c = .ok i →
    step s = exec i { s with inputs := rest, accepted := s.accepted ++ [c] }

/-- R77, R78, R86: the same when the word is no command: it is accepted and answered `0x6000`. Rounds are the model's own
(log entry 4). -/
def Obligations.StepAnswersAWordThatIsNoCommand : Prop :=
  ∀ (s : State) (c : Cmd) (ready : Bool) (rest : List HostInput),
    s.inputs = { rst := false, cmd := some c, rspReady := ready } :: rest → s.rsp = none →
    (∀ i, decodeCommand c ≠ .ok i) →
    step s = .next { s with inputs := rest, accepted := s.accepted ++ [c], rsp := some 0x6000#16 }

/-- R86: the response is taken in a round in which it waits and the host is ready, whatever else the host offers; a round
with an empty response port and no word offered changes nothing but the consumed input. Rounds and the list of responses
taken are the model's own (log entries 4 and 5). -/
def Obligations.TakeAndIdleRounds : Prop :=
  ∀ (s : State) (inp : HostInput) (rest : List HostInput), s.inputs = inp :: rest → inp.rst = false →
    (∀ r, s.rsp = some r → inp.rspReady = true →
      step s = .next { s with inputs := rest, rsp := none, taken := s.taken ++ [r] }) ∧
    (s.rsp = none → inp.cmd = none → step s = .next { s with inputs := rest })

/-- R134: while the host does not take the waiting response, no round of any number accepts a word or changes the
response, `M` or the counts; a round in which it takes the response lifts this. Rounds are the model's own (log entry
4). -/
def Obligations.BackPressureHoldsUntilTheResponseIsTaken : Prop :=
  ∀ (k : Nat) (s : State) (r : Rsp), s.rsp = some r →
    ((∀ inp ∈ s.inputs.take k, inp.rst = false ∧ inp.rspReady = false) →
      Host.Core.run Sys2Proof.core k s = .next { s with inputs := s.inputs.drop k }) ∧
    (∀ inp rest, s.inputs = inp :: rest → inp.rst = false → inp.rspReady = true →
      ∃ t, step s = .next t ∧ t.cmdReady false = true ∧ t.taken = s.taken ++ [r])

/-- R129, R130: in a round with `rst = 1` both output signals are 0, and whatever the state was it becomes the reset
state: `M` all ones, no response, no count of earlier words; then the engine is ready for a command. Rounds and the counts
are the model's own (log entries 4 and 5). -/
def Obligations.ResetRoundRestoresTheMachine : Prop :=
  ∀ (s : State) (inp : HostInput) (rest : List HostInput), s.inputs = inp :: rest → inp.rst = true →
    s.cmdReady true = false ∧ s.rspValid true = false ∧
    ∃ t : State,
      step s = .next t ∧
      t = { width := s.width, mem := Vector.replicate s.width.nwords (BitVec.allOnes s.width.bits), rsp := none,
            inputs := rest, accepted := [], taken := [] } ∧
      t.cmdReady false = true ∧ t.rspValid false = false

/-- R43, at every word width: every word of `M`, every cell, the tail padding, the two ports; the default width is 64. The
counts `accepted` and `taken` are the model's own (log entry 5). -/
def Obligations.ResetStateValues : Prop :=
  State.reset = State.resetAt .w64 ∧
  ∀ w : Width,
    (∀ (i : Nat) (h : i < (State.resetAt w).width.nwords), (State.resetAt w).mem[i] = BitVec.allOnes _) ∧
    (∀ p : Cell, (State.resetAt w).cand p = 0x1FF#9) ∧
    (∀ (x : Nat) (hx : x < w.nwords * w.bits), 729 ≤ x → bit (State.resetAt w).mem x hx = true) ∧
    (State.resetAt w).rspValid false = false ∧ (State.resetAt w).accepted = [] ∧ (State.resetAt w).taken = []

/-- Log entry 6: `withFetchWord` makes the very next step execute that word. The model's own convention. -/
def Obligations.FetchWordRunsNext : Prop :=
  ∀ (s : State) (nbits n : Nat),
    step (s.withFetchWord nbits n) =
      execute (BitVec.ofNat 32 (n % 2 ^ nbits))
        { s with rsp := none, accepted := s.accepted ++ [BitVec.ofNat 32 (n % 2 ^ nbits)] }

/-! ### The eight commands -/

/-- R89: NEW fills `M` with ones, whatever it held, as reset does; every cell reads `ANY` and the padding is 1; a malformed
NEW word is illegal; NEW is idempotent; no other command writes the padding. -/
def Obligations.NewFillsTheStore : Prop :=
  (∀ s : State, execute 0x10000000#32 s = exec .new s) ∧
  (∀ s : State,
    exec .new s =
      .next { s with mem := Vector.replicate s.width.nwords (BitVec.allOnes s.width.bits), rsp := some 0x0000#16 }) ∧
  (∀ (w : Width) (m : Store w), m = Vector.replicate w.nwords (BitVec.allOnes w.bits) →
    m = (State.resetAt w).mem ∧ (∀ p, readField m p = 0x1FF#9) ∧ ∀ x hx, bit m x hx = true) ∧
  (∀ (c : Cmd) (s : State), (c.extractLsb' 28 4).toNat = 1 → c.extractLsb' 0 28 ≠ 0#28 →
    execute c s = .next { s with rsp := some 0x6000#16 }) ∧
  (∀ (s t : State), exec .new s = .next t → exec .new t = .next t) ∧
  (∀ (i : Instr) (s : State), i ≠ .new → ∃ (m : Store s.width) (r : Rsp),
    exec i s = .next { s with mem := m, rsp := some r } ∧ ∀ x hx, 729 ≤ x → bit m x hx = bit s.mem x hx)

/-- R90: SETC on valid operands writes exactly the 9 bits of the cell's field, and a GETC after it answers the set; the
errors in their order: a must-be-zero bit (at the word), the coordinate, the set. -/
def Obligations.SetcWritesTheSet : Prop :=
  (∀ (c : Cmd) (s : State), c &&& 0xF00F0000#32 = 0x20000000#32 →
    execute c s = exec (.setc (c.extractLsb' 24 4) (c.extractLsb' 20 4) (c.extractLsb' 0 16)) s) ∧
  (∀ (s : State) (row col : BitVec 4) (set : BitVec 16) (p : Cell) (v : CandidateSet),
    row.toNat = p.row.val → col.toNat = p.col.val → set.toNat = v.toNat →
    ∃ m : Store s.width,
      exec (.setc row col set) s = .next { s with mem := m, rsp := some 0x0000#16 } ∧
      (∀ x hx, bit m x hx = if p.offset ≤ x ∧ x < p.offset + 9 then v.getLsbD (x - p.offset) else bit s.mem x hx) ∧
      (∀ q, readField m q = if q = p then v else readField s.mem q) ∧
      exec (.getc row col) { s with mem := m, rsp := some 0x0000#16 } =
        .next { s with mem := m, rsp := some (v.setWidth 16) }) ∧
  (∀ (s : State) (row col : BitVec 4) (set : BitVec 16), 8 < row.toNat ∨ 8 < col.toNat →
    exec (.setc row col set) s = .next { s with rsp := some 0x4000#16 }) ∧
  (∀ (s : State) (row col : BitVec 4) (set : BitVec 16), row.toNat ≤ 8 → col.toNat ≤ 8 → 0x1FF < set.toNat →
    exec (.setc row col set) s = .next { s with rsp := some 0x3000#16 }) ∧
  (∀ (c : Cmd) (s : State), (c.extractLsb' 28 4).toNat = 2 → c.extractLsb' 16 4 ≠ 0#4 →
    execute c s = .next { s with rsp := some 0x6000#16 })

/-- R91: SETD on valid operands writes the singleton of the digit, the same in state and response as SETC of
`1 << digit`; GETC and GETD after it answer that set and the digit; its errors in their order. -/
def Obligations.SetdWritesTheSingleton : Prop :=
  (∀ (c : Cmd) (s : State), c &&& 0xF000FFFF#32 = 0x30000000#32 →
    execute c s = exec (.setd (c.extractLsb' 24 4) (c.extractLsb' 20 4) (c.extractLsb' 16 4)) s) ∧
  (∀ (s : State) (row col digit : BitVec 4) (p : Cell) (d : Digit),
    row.toNat = p.row.val → col.toNat = p.col.val → digit.toNat = d.val →
    ∃ m : Store s.width,
      exec (.setd row col digit) s = .next { s with mem := m, rsp := some 0x0000#16 } ∧
      (∀ x hx, bit m x hx = if p.offset ≤ x ∧ x < p.offset + 9 then decide (x = p.offset + d.val) else bit s.mem x hx) ∧
      (∀ q, readField m q = if q = p then 1#9 <<< d.val else readField s.mem q) ∧
      exec (.setc row col (1#16 <<< d.val)) s = .next { s with mem := m, rsp := some 0x0000#16 } ∧
      exec (.getc row col) { s with mem := m, rsp := some 0x0000#16 } =
        .next { s with mem := m, rsp := some (1#16 <<< d.val) } ∧
      exec (.getd row col) { s with mem := m, rsp := some 0x0000#16 } =
        .next { s with mem := m, rsp := some (BitVec.ofNat 16 d.val) }) ∧
  (∀ (s : State) (row col digit : BitVec 4), 8 < row.toNat ∨ 8 < col.toNat →
    exec (.setd row col digit) s = .next { s with rsp := some 0x4000#16 }) ∧
  (∀ (s : State) (row col digit : BitVec 4), row.toNat ≤ 8 → col.toNat ≤ 8 → 8 < digit.toNat →
    exec (.setd row col digit) s = .next { s with rsp := some 0x2000#16 }) ∧
  (∀ (c : Cmd) (s : State), (c.extractLsb' 28 4).toNat = 3 → c.extractLsb' 0 16 ≠ 0#16 →
    execute c s = .next { s with rsp := some 0x6000#16 })

/-- R92: GETC on valid operands answers `OK` with the 9 bits of the cell's field and writes nothing; after NEW or reset
that is `0x1FF`; its errors. -/
def Obligations.GetcReadsTheSet : Prop :=
  (∀ (c : Cmd) (s : State), c &&& 0xF00FFFFF#32 = 0x40000000#32 →
    execute c s = exec (.getc (c.extractLsb' 24 4) (c.extractLsb' 20 4)) s) ∧
  (∀ (s : State) (row col : BitVec 4) (p : Cell), row.toNat = p.row.val → col.toNat = p.col.val →
    ∃ v : CandidateSet,
      exec (.getc row col) s = .next { s with rsp := some (v.setWidth 16) } ∧
      (∀ d : Digit, contains v d = bit s.mem (p.offset + d.val) (BitIndex.lt_bits s.width (p.bitOf d)))) ∧
  (∀ (s : State) (row col : BitVec 4), row.toNat ≤ 8 → col.toNat ≤ 8 →
    s.mem = Vector.replicate s.width.nwords (BitVec.allOnes s.width.bits) →
    exec (.getc row col) s = .next { s with rsp := some 0x01FF#16 }) ∧
  (∀ (s : State) (row col : BitVec 4), 8 < row.toNat ∨ 8 < col.toNat →
    exec (.getc row col) s = .next { s with rsp := some 0x4000#16 }) ∧
  (∀ (c : Cmd) (s : State), (c.extractLsb' 28 4).toNat = 4 → c.extractLsb' 0 20 ≠ 0#20 →
    execute c s = .next { s with rsp := some 0x6000#16 })

/-- R93: GETD answers the digit of a singleton set, and `AmbiguousCandidates` for every other set (0 bits, or 2 to 9);
it writes nothing; its errors. -/
def Obligations.GetdReadsTheDigit : Prop :=
  (∀ (c : Cmd) (s : State), c &&& 0xF00FFFFF#32 = 0x50000000#32 →
    execute c s = exec (.getd (c.extractLsb' 24 4) (c.extractLsb' 20 4)) s) ∧
  (∀ (s : State) (row col : BitVec 4) (p : Cell) (d : Digit), row.toNat = p.row.val → col.toNat = p.col.val →
    s.cand p = 1#9 <<< d.val → exec (.getd row col) s = .next { s with rsp := some (BitVec.ofNat 16 d.val) }) ∧
  (∀ (s : State) (row col : BitVec 4) (p : Cell), row.toNat = p.row.val → col.toNat = p.col.val →
    (∀ d : Digit, s.cand p ≠ 1#9 <<< d.val) → exec (.getd row col) s = .next { s with rsp := some 0x1000#16 }) ∧
  (∀ (s : State) (row col : BitVec 4), 8 < row.toNat ∨ 8 < col.toNat →
    exec (.getd row col) s = .next { s with rsp := some 0x4000#16 }) ∧
  (∀ (c : Cmd) (s : State), (c.extractLsb' 28 4).toNat = 5 → c.extractLsb' 0 20 ≠ 0#20 →
    execute c s = .next { s with rsp := some 0x6000#16 })

/-- R94: COMMIT on valid operands, whatever `M` holds: the cell becomes `{d}`, each cell that shares its row, column or
block loses `d`, every other cell and the padding stay; its errors in their order. -/
def Obligations.CommitEliminatesAndWrites : Prop :=
  (∀ (c : Cmd) (s : State), c &&& 0xF000FFFF#32 = 0x60000000#32 →
    execute c s = exec (.commit (c.extractLsb' 24 4) (c.extractLsb' 20 4) (c.extractLsb' 16 4)) s) ∧
  (∀ (s : State) (row col digit : BitVec 4) (p : Cell) (d : Digit),
    row.toNat = p.row.val → col.toNat = p.col.val → digit.toNat = d.val →
    ∃ m : Store s.width,
      exec (.commit row col digit) s = .next { s with mem := m, rsp := some 0x0000#16 } ∧
      readField m p = 1#9 <<< d.val ∧
      (∀ q, q ≠ p → (q.row = p.row ∨ q.col = p.col ∨ q.block = p.block) →
        readField m q = readField s.mem q &&& ~~~(1#9 <<< d.val)) ∧
      (∀ x, x.row ≠ p.row → x.col ≠ p.col → x.block ≠ p.block → readField m x = readField s.mem x) ∧
      (∀ x hx, 729 ≤ x → bit m x hx = bit s.mem x hx)) ∧
  (∀ (s : State) (row col digit : BitVec 4), 8 < row.toNat ∨ 8 < col.toNat →
    exec (.commit row col digit) s = .next { s with rsp := some 0x4000#16 }) ∧
  (∀ (s : State) (row col digit : BitVec 4), row.toNat ≤ 8 → col.toNat ≤ 8 → 8 < digit.toNat →
    exec (.commit row col digit) s = .next { s with rsp := some 0x2000#16 }) ∧
  (∀ (c : Cmd) (s : State), (c.extractLsb' 28 4).toNat = 6 → c.extractLsb' 0 16 ≠ 0#16 →
    execute c s = .next { s with rsp := some 0x6000#16 })

/-- R101: CLRBIT on an index 0..728 clears that bit, Digit `index % 9` of cell `index / 9`, and no other; above 728 it is
out of range; a must-be-zero bit makes the word illegal. -/
def Obligations.ClrbitClearsOneBit : Prop :=
  (∀ (c : Cmd) (s : State), c &&& 0xFFFF0000#32 = 0x70000000#32 →
    execute c s = exec (.clrbit (c.extractLsb' 0 16)) s) ∧
  (∀ (s : State) (index : BitVec 16), index.toNat ≤ 728 →
    ∃ m : Store s.width,
      exec (.clrbit index) s = .next { s with mem := m, rsp := some 0x0000#16 } ∧
      (∀ x hx, bit m x hx = if x = index.toNat then false else bit s.mem x hx) ∧
      (∀ (p : Cell) (d : Digit), p.index = index.toNat / 9 → d.val = index.toNat % 9 →
        readField m p = readField s.mem p &&& ~~~(1#9 <<< d.val))) ∧
  (∀ (s : State) (index : BitVec 16), 728 < index.toNat →
    exec (.clrbit index) s = .next { s with rsp := some 0x5000#16 }) ∧
  (∀ (c : Cmd) (s : State), (c.extractLsb' 28 4).toNat = 7 → c.extractLsb' 16 12 ≠ 0#12 →
    execute c s = .next { s with rsp := some 0x6000#16 })

/-- R102: SETBIT on an index 0..728 sets that bit, Digit `index % 9` of cell `index / 9`, and no other; above 728 it is
out of range; a must-be-zero bit makes the word illegal. -/
def Obligations.SetbitSetsOneBit : Prop :=
  (∀ (c : Cmd) (s : State), c &&& 0xFFFF0000#32 = 0x80000000#32 →
    execute c s = exec (.setbit (c.extractLsb' 0 16)) s) ∧
  (∀ (s : State) (index : BitVec 16), index.toNat ≤ 728 →
    ∃ m : Store s.width,
      exec (.setbit index) s = .next { s with mem := m, rsp := some 0x0000#16 } ∧
      (∀ x hx, bit m x hx = if x = index.toNat then true else bit s.mem x hx) ∧
      (∀ (p : Cell) (d : Digit), p.index = index.toNat / 9 → d.val = index.toNat % 9 →
        readField m p = readField s.mem p ||| (1#9 <<< d.val))) ∧
  (∀ (s : State) (index : BitVec 16), 728 < index.toNat →
    exec (.setbit index) s = .next { s with rsp := some 0x5000#16 }) ∧
  (∀ (c : Cmd) (s : State), (c.extractLsb' 28 4).toNat = 8 → c.extractLsb' 16 12 ≠ 0#12 →
    execute c s = .next { s with rsp := some 0x6000#16 })

/-! ### Value types -/

/-- R26: `toDigit` succeeds with the one member of a set exactly when its count is 1, and is ambiguous otherwise. -/
def Obligations.ToDigitNeedsExactlyOneBit : Prop :=
  ∀ s : CandidateSet,
    (∀ d : Digit, toDigit s = .ok d ↔ count s = 1 ∧ contains s d = true ∧ ∀ e < d, contains s e = false) ∧
    (count s ≠ 1 → toDigit s = .error .ambiguousCandidates)

/-- R29: the conversions between cells, flat indices, blocks and in-block offsets, and their inverses. -/
def Obligations.CoordinateConversions : Prop :=
  (∀ p : Cell,
    p.index = p.row.val * 9 + p.col.val ∧ p.index ≤ 80 ∧
    p.block.blockColumn.val = p.col.val / 3 ∧ p.block.blockRow.val = p.row.val / 3 ∧
    p.offsetIn.offsetColumn.val = p.col.val % 3 ∧ p.offsetIn.offsetRow.val = p.row.val % 3 ∧
    toGridPoint p.block p.offsetIn = p) ∧
  (∀ i : Fin 81,
    (Cell.ofIndex i).row.val = i.val / 9 ∧ (Cell.ofIndex i).col.val = i.val % 9 ∧ (Cell.ofIndex i).index = i.val) ∧
  (∀ (b : Block) (o : BlockPoint),
    (toGridPoint b o).col.val = b.blockColumn.val * 3 + o.offsetColumn.val ∧
    (toGridPoint b o).row.val = b.blockRow.val * 3 + o.offsetRow.val ∧
    (toGridPoint b o).block = b ∧ (toGridPoint b o).offsetIn = o) ∧
  (∀ k : Fin 9,
    (BlockPoint.ofFlat k).offsetRow.val = k.val / 3 ∧ (BlockPoint.ofFlat k).offsetColumn.val = k.val % 3 ∧
    (BlockPoint.ofFlat k).flat = k)

/-- R30: the three groups have 9 cells each and are the cells of the same row, column, block; `peers(p)` is their union
without `p`, 20 cells for every `p`, of which 8 in the row, 8 in the column and 4 in neither; the relation is symmetric;
the 9 blocks partition the grid; the spec's example. -/
def Obligations.PeersAreTheTwentyOtherCells : Prop :=
  (∀ p q : Cell,
    (q ∈ rowGroup p ↔ q.row = p.row) ∧ (q ∈ colGroup p ↔ q.col = p.col) ∧
    (q ∈ blockGroup p ↔ q.row.val / 3 = p.row.val / 3 ∧ q.col.val / 3 = p.col.val / 3) ∧
    (q ∈ peers p ↔ (q ∈ rowGroup p ∨ q ∈ colGroup p ∨ q ∈ blockGroup p) ∧ q ≠ p) ∧
    (q ∈ peers p ↔ p ∈ peers q)) ∧
  (∀ p : Cell,
    (rowGroup p).length = 9 ∧ (rowGroup p).Nodup ∧ (colGroup p).length = 9 ∧ (colGroup p).Nodup ∧
    (blockGroup p).length = 9 ∧ (blockGroup p).Nodup ∧ (peers p).length = 20 ∧ (peers p).Nodup ∧
    ((peers p).filter fun q => q.row = p.row).length = 8 ∧ ((peers p).filter fun q => q.col = p.col).length = 8 ∧
    ((peers p).filter fun q => q.row ≠ p.row ∧ q.col ≠ p.col).length = 4) ∧
  (∀ p q x : Cell, x ∈ blockGroup p → x ∈ blockGroup q → ∀ y, y ∈ blockGroup p ↔ y ∈ blockGroup q) ∧
  peers ⟨0, 0⟩ = [⟨0, 1⟩, ⟨0, 2⟩, ⟨0, 3⟩, ⟨0, 4⟩, ⟨0, 5⟩, ⟨0, 6⟩, ⟨0, 7⟩, ⟨0, 8⟩,
    ⟨1, 0⟩, ⟨2, 0⟩, ⟨3, 0⟩, ⟨4, 0⟩, ⟨5, 0⟩, ⟨6, 0⟩, ⟨7, 0⟩, ⟨8, 0⟩, ⟨1, 1⟩, ⟨1, 2⟩, ⟨2, 1⟩, ⟨2, 2⟩]

/-! ### Bit addressing and the primitives -/

/-- R46, R47, for accesses of 1 and 9 bits in range at every width: the split, its bounds, that no third word is reached
and the words exist, and when a field straddles. -/
def Obligations.AccessSplitBounds : Prop :=
  ∀ (w : Width) (g n : Nat), n = 1 ∨ n = 9 → g + n ≤ 729 →
    startWord w g = g / w.bits ∧ startBit w g = g % w.bits ∧
    nLow w g n = min n (w.bits - g % w.bits) ∧ nHigh w g n = n - nLow w g n ∧
    1 ≤ nLow w g n ∧ nLow w g n ≤ n ∧ nHigh w g n ≤ n - 1 ∧ nHigh w g n ≤ w.bits ∧
    startWord w g < w.nwords ∧
    (0 < nHigh w g n → startWord w g + 1 < w.nwords ∧ (startWord w g + 1) * w.bits ≤ g + n - 1) ∧
    (straddles w g n = true ↔ 0 < nHigh w g n) ∧
    (straddles w g n = true ↔ n = 9 ∧ w.bits < g % w.bits + 9)

/-- R48: the straddling cells at each width, and the spec's table of ten cells (row, column, flat index, offset, then
startWord, startBit, nLow, nHigh at W = 64, 16, 8). -/
def Obligations.StraddlingCells : Prop :=
  (∀ p : Cell, p.offset = (p.row.val * 9 + p.col.val) * 9) ∧
  ((List.range 81).filter fun i => straddles .w64 (9 * i) 9) = [7, 14, 21, 28, 35, 42, 49, 56, 71, 78] ∧
  ((List.range 81).filter fun i => straddles .w32 (9 * i) 9) =
    [3, 7, 10, 14, 17, 21, 24, 28, 35, 39, 42, 46, 49, 53, 56, 60, 67, 71, 74, 78] ∧
  ((List.range 81).filter fun i => straddles .w16 (9 * i) 9) =
    [1, 3, 5, 7, 8, 10, 12, 14, 17, 19, 21, 23, 24, 26, 28, 30, 33, 35, 37, 39, 40, 42, 44, 46, 49, 51, 53, 55, 56, 58,
      60, 62, 65, 67, 69, 71, 72, 74, 76, 78] ∧
  ((List.range 81).filter fun i => straddles .w8 (9 * i) 9) = List.range 81 ∧
  (∀ e ∈ [((0, 0, 0, 0), (0, 0, 9, 0), (0, 0, 9, 0), (0, 0, 8, 1)), ((0, 1, 1, 9), (0, 9, 9, 0), (0, 9, 7, 2), (1, 1, 7, 2)),
      ((0, 6, 6, 54), (0, 54, 9, 0), (3, 6, 9, 0), (6, 6, 2, 7)), ((0, 7, 7, 63), (0, 63, 1, 8), (3, 15, 1, 8), (7, 7, 1, 8)),
      ((0, 8, 8, 72), (1, 8, 9, 0), (4, 8, 8, 1), (9, 0, 8, 1)), ((1, 0, 9, 81), (1, 17, 9, 0), (5, 1, 9, 0), (10, 1, 7, 2)),
      ((3, 1, 28, 252), (3, 60, 4, 5), (15, 12, 4, 5), (31, 4, 4, 5)),
      ((7, 0, 63, 567), (8, 55, 9, 0), (35, 7, 9, 0), (70, 7, 1, 8)),
      ((7, 8, 71, 639), (9, 63, 1, 8), (39, 15, 1, 8), (79, 7, 1, 8)),
      ((8, 8, 80, 720), (11, 16, 9, 0), (45, 0, 9, 0), (90, 0, 8, 1))],
    ∀ p : Cell, p.row.val = e.1.1 → p.col.val = e.1.2.1 →
      p.index = e.1.2.2.1 ∧ p.offset = e.1.2.2.2 ∧
      (startWord .w64 p.offset, startBit .w64 p.offset, nLow .w64 p.offset 9, nHigh .w64 p.offset 9) = e.2.1 ∧
      (startWord .w16 p.offset, startBit .w16 p.offset, nLow .w16 p.offset 9, nHigh .w16 p.offset 9) = e.2.2.1 ∧
      (startWord .w8 p.offset, startBit .w8 p.offset, nLow .w8 p.offset 9, nHigh .w8 p.offset 9) = e.2.2.2)

/-- R52, R53: the engine's split is the source's `(endWord, endBit)` formula wherever a straddling field has
`endBit ≠ 0`, which at `W ≥ 9` is always; where the one-past-last bit is bit 0 of a word, the engine does not straddle
(`W ≥ 9`) or takes `startWord + 1` and not `endWord` (`W = 8`). -/
def Obligations.SplitAgainstTheSourcesFormula : Prop :=
  ∀ (w : Width) (g endWord endBit : Nat), g + 9 ≤ 729 → splitOffset w (g + 9) = (endWord, endBit) →
    (straddles w g 9 = true → endBit ≠ 0 →
      endWord = startWord w g + 1 ∧ nHigh w g 9 = endBit ∧ nLow w g 9 = 9 - endBit) ∧
    (w ≠ .w8 → straddles w g 9 = true → endBit ≠ 0) ∧
    (w ≠ .w8 → startBit w g = w.bits - 9 →
      straddles w g 9 = false ∧ endWord = startWord w g + 1 ∧ endBit = 0 ∧ nHigh w g 9 = 0) ∧
    (w = .w8 → startBit w g = 7 →
      nLow w g 9 = 1 ∧ nHigh w g 9 = 8 ∧ endWord = startWord w g + 2 ∧ endBit = 0)

/-- R54: a write changes no bit outside its own, and word by word: under the masks in its one or two words, nothing in any
other; a field write leaves every other cell's field and the tail padding. -/
def Obligations.WriteDisturbsNoOtherBits : Prop :=
  ∀ (w : Width) (m : Store w),
    (∀ (g n : Nat) (v : BitVec n) (h : InRange g n), n = 1 ∨ n = 9 →
      (∀ x hx, ¬ (g ≤ x ∧ x < g + n) → bit (memWrite m g n v h) x hx = bit m x hx) ∧
      (∀ (i : Nat) (hi : i < w.nwords), i ≠ startWord w g → ¬ (i = startWord w g + 1 ∧ 0 < nHigh w g n) →
        (memWrite m g n v h)[i] = m[i]) ∧
      (∀ hi : startWord w g < w.nwords,
        (memWrite m g n v h)[startWord w g] &&& ~~~(ones w.bits (nLow w g n) <<< startBit w g) =
          m[startWord w g] &&& ~~~(ones w.bits (nLow w g n) <<< startBit w g)) ∧
      (∀ hi : startWord w g + 1 < w.nwords, 0 < nHigh w g n →
        (memWrite m g n v h)[startWord w g + 1] &&& ~~~(ones w.bits (nHigh w g n)) =
          m[startWord w g + 1] &&& ~~~(ones w.bits (nHigh w g n)))) ∧
    (∀ (p : Cell) (v : CandidateSet),
      (∀ q, q ≠ p → readField (writeField m p v) q = readField m q) ∧
      (∀ x hx, 729 ≤ x → bit (writeField m p v) x hx = bit m x hx))

/-- R55: single-bit accesses through the primitives, and a 9-bit write as nine single-bit writes in any order. -/
def Obligations.SingleBitAccessThroughPrimitives : Prop :=
  ∀ (w : Width) (m : Store w),
    (∀ (g : Nat) (h : InRange g 1) (hg : g < w.nwords * w.bits),
      memWrite m g 1 0#1 h = bitClear m g hg ∧ memWrite m g 1 1#1 h = bitSet m g hg ∧
      (memRead m g 1 h).toNat = ((m[g / w.bits]'(startWord_lt hg)).toNat >>> (g % w.bits)) &&& 1) ∧
    (∀ (g : Nat) (v : BitVec 9) (h : InRange g 9) (order : List (Fin 9)), order.Perm nine →
      order.foldl (fun m k => memWrite m (g + k.val) 1 (BitVec.ofBool (v.getLsbD k.val)) (h.single k.isLt)) m =
        memWrite m g 9 v h)

/-- R56: reading back what was written, for every cell and every range, straddling or not; and a disjoint range reads as
before. -/
def Obligations.WriteThenReadRoundTrip : Prop :=
  (∀ (s : State) (row col : BitVec 4) (p : Cell) (v : CandidateSet),
    row.toNat = p.row.val → col.toNat = p.col.val →
    ∃ t, exec (.setc row col (v.setWidth 16)) s = .next t ∧ exec (.getc row col) t = .next { t with rsp := some (v.setWidth 16) }) ∧
  (∀ (w : Width) (m : Store w) (g n : Nat) (v : BitVec n) (h : InRange g n), n = 1 ∨ n = 9 →
    memRead (memWrite m g n v h) g n h = v ∧
    ∀ (g' n' : Nat) (h' : InRange g' n'), n' = 1 ∨ n' = 9 → g' + n' ≤ g ∨ g + n ≤ g' →
      memRead (memWrite m g n v h) g' n' h' = memRead m g' n' h')

/-! ### The elimination propagator -/

/-- R96: the 20 clears address 20 different bits, none in the target's field; any list that clears the same digit in all
peers, in any order, with repeats, and with the target or without, leads to the state of COMMIT, among them the walks of
the three groups with 24 clears and with 27; and if the write came before a clear of the target's own bit, the target would
be left empty. -/
def Obligations.CommitOrderIsImmaterial : Prop :=
  ∀ (p : Cell) (d : Digit),
    ((peers p).map fun q => (q.bitOf d).val).Nodup ∧ (peers p).length = 20 ∧ p ∉ peers p ∧
    (let walk := rowGroup p ++ colGroup p ++ blockGroup p
     walk.length = 27 ∧ (walk.filter (· ≠ p)).length = 24 ∧ ∀ q, q ≠ p → (q ∈ walk ↔ q ∈ peers p)) ∧
    ∀ (w : Width) (m : Store w) (qs : List Cell), (∀ q, q ≠ p → (q ∈ qs ↔ q ∈ peers p)) →
      writeField (eliminate m d qs) p (fromDigit d) = commitStore m p d ∧
      (p ∈ qs → readField (eliminate (writeField m p (fromDigit d)) d qs) p = 0#9)

/-- R98: what COMMIT does to a peer is a clear, which equals the XOR under the membership test; without the test the XOR
would put back a digit already absent. -/
def Obligations.ClearIsAGuardedXor : Prop :=
  ∀ (s : State) (p q : Cell) (d : Digit), isPeer p q = true →
    ∃ m : Store s.width,
      exec (commitInstr p d) s = .next { s with mem := m, rsp := some 0x0000#16 } ∧
      readField m q = readField s.mem q &&& ~~~(1#9 <<< d.val) ∧
      readField m q =
        (if contains (readField s.mem q) d then symmetricDifference (readField s.mem q) (fromDigit d)
          else readField s.mem q) ∧
      (contains (readField s.mem q) d = false →
        contains (symmetricDifference (readField s.mem q) (fromDigit d)) d = true ∧ readField m q = readField s.mem q)

/-- R99: propagation, idempotence, non-interference and commutation of COMMIT, from any store; and the order of any list
of commits to different cells, with no digit repeated among peers, does not change the final `M`. -/
def Obligations.CommitProperties : Prop :=
  (∀ (s : State) (ps qs : List (Cell × Digit)), ps.Perm qs →
    ps.Pairwise (fun a b => a.1 ≠ b.1 ∧ ¬ (isPeer a.1 b.1 = true ∧ a.2 = b.2)) →
    ∃ t : State,
      issueAll (ps.map fun pd => commitWord pd.1 pd.2) s = .next t ∧
      issueAll (qs.map fun pd => commitWord pd.1 pd.2) s =
        .next { t with accepted := s.accepted ++ qs.map fun pd => commitWord pd.1 pd.2 }) ∧
  ∀ (s : State) (p : Cell) (d : Digit), ∃ m : Store s.width,
    exec (commitInstr p d) s = .next { s with mem := m, rsp := some 0x0000#16 } ∧
    -- propagation correctness
    readField m p = 1#9 <<< d.val ∧ (∀ q, isPeer p q = true → contains (readField m q) d = false) ∧
    -- idempotence
    exec (commitInstr p d) { s with mem := m, rsp := some 0x0000#16 } = .next { s with mem := m, rsp := some 0x0000#16 } ∧
    -- non-interference
    (∀ q, q ≠ p → isPeer p q = false → readField m q = readField s.mem q) ∧
    (∀ q e, isPeer p q = true → e ≠ d → contains (readField m q) e = contains (readField s.mem q) e) ∧
    -- commutation, with its one exception for different cells, and two commits of one cell
    (∀ (q : Cell) (e : Digit), ∃ m' n n' : Store s.width,
      exec (commitInstr q e) { s with mem := m, rsp := some 0x0000#16 } = .next { s with mem := n, rsp := some 0x0000#16 } ∧
      exec (commitInstr q e) s = .next { s with mem := m', rsp := some 0x0000#16 } ∧
      exec (commitInstr p d) { s with mem := m', rsp := some 0x0000#16 } = .next { s with mem := n', rsp := some 0x0000#16 } ∧
      (p ≠ q → ¬ (isPeer p q = true ∧ d = e) → n = n') ∧
      (isPeer p q = true → d = e →
        readField n p = 0#9 ∧ readField n q = 1#9 <<< d.val ∧ readField n' q = 0#9 ∧ readField n' p = 1#9 <<< d.val) ∧
      (p = q → readField n p = 1#9 <<< e.val ∧ readField n' p = 1#9 <<< d.val))

/-- R103: a bit index is 9 times a cell's index plus a digit; CLRBIT and SETBIT of such an index are SETC of the set
without and with the digit; COMMIT is the CLRBITs of its peers and then SETD, issued one after another. -/
def Obligations.BitIndexAndCellCommandsAgree : Prop :=
  (∀ g : BitIndex, g.val = 9 * g.cell.index + g.digit.val ∧ g.cell.index = g.val / 9 ∧ g.digit.val = g.val % 9 ∧
    g.cell.row.val = g.val / 81 ∧ g.cell.col.val = g.cell.index % 9 ∧ g = g.cell.bitOf g.digit) ∧
  (∀ (s : State) (p : Cell) (d : Digit),
    (∃ m : Store s.width,
      exec (.clrbit (BitVec.ofNat 16 (p.offset + d.val))) s = .next { s with mem := m, rsp := some 0x0000#16 } ∧
      exec (.setc (field4 p.row) (field4 p.col) ((readField s.mem p &&& ~~~(1#9 <<< d.val)).setWidth 16)) s =
        .next { s with mem := m, rsp := some 0x0000#16 }) ∧
    (∃ m : Store s.width,
      exec (.setbit (BitVec.ofNat 16 (p.offset + d.val))) s = .next { s with mem := m, rsp := some 0x0000#16 } ∧
      exec (.setc (field4 p.row) (field4 p.col) ((readField s.mem p ||| (1#9 <<< d.val)).setWidth 16)) s =
        .next { s with mem := m, rsp := some 0x0000#16 }) ∧
    (∃ (m : Store s.width) (accepted : List Cmd) (taken : List Rsp),
      exec (commitInstr p d) s = .next { s with mem := m, rsp := some 0x0000#16 } ∧
      issueAll (((peers p).map fun q => encode (.clrbit (BitVec.ofNat 16 (q.offset + d.val)))) ++
          [encode (.setd (field4 p.row) (field4 p.col) (field4 d))]) s =
        .next { s with mem := m, rsp := none, accepted := accepted, taken := taken }))

/-- R35: under any list of COMMITs, a cell that is not itself a target only loses digits, and loses exactly those that
are committed to its peers. -/
def Obligations.CommitsOnlyRemoveFromOtherCells : Prop :=
  ∀ (s : State) (ps : List (Cell × Digit)) (q : Cell), (∀ pd ∈ ps, pd.1 ≠ q) →
    ∃ t, issueAll (ps.map fun pd => commitWord pd.1 pd.2) s = .next t ∧
      ∀ e : Digit, contains (t.cand q) e = true ↔
        contains (s.cand q) e = true ∧ ∀ pd ∈ ps, isPeer pd.1 q = true → pd.2 ≠ e

/-! ### The whole machine -/

/-- R33: every step keeps the tail padding at 1. -/
def Obligations.StepKeepsPadding : Prop :=
  ∀ s t : State, Memory.wf s.mem → step s = .next t → Memory.wf t.mem

/-- R33, R43: the padding is 1 after reset, at every width. -/
def Obligations.ResetHasPadding : Prop :=
  ∀ w : Width, Memory.wf (State.resetAt w).mem

/-- R61, R87, R141: every step keeps the port's history faithful: the responses taken and waiting, in order, and `M` are
those of the accepted words executed one by one from reset. The history is the model's own (log entry 5). -/
def Obligations.StepKeepsHistoryFaithful : Prop :=
  ∀ s t : State, s.Faithful → step s = .next t → t.Faithful

/-- R43, R130: the history is faithful after reset, at every width. -/
def Obligations.ResetHistoryIsFaithful : Prop :=
  ∀ w : Width, (State.resetAt w).Faithful ∧ State.reset.Faithful

/-- R74, R75: every step keeps every response, waiting or taken, one that the engine can produce: a code 0..6, bits 11:9
zero, `DATA = 0` unless `OK`. -/
def Obligations.StepKeepsResponsesWellFormed : Prop :=
  ∀ s t : State, s.ResponsesWellFormed → step s = .next t → t.ResponsesWellFormed

/-- There is no response after reset, so all are well formed. -/
def Obligations.ResetResponsesAreWellFormed : Prop :=
  ∀ w : Width, (State.resetAt w).ResponsesWellFormed

/-- R120: a command that answers a non-OK status has changed nothing, and the next command runs as if it had not been
sent; only GETD's status depends on the state, and GETD writes nothing. -/
def Obligations.ErrorsArePrecise : Prop :=
  (∀ (c : Cmd) (s s' t t' : State) (r r' : Rsp), (c.extractLsb' 28 4).toNat ≠ 5 →
    execute c s = .next t → execute c s' = .next t' → t.rsp = some r → t'.rsp = some r' →
    statusField r = statusField r') ∧
  (∀ (c : Cmd) (s t : State), (c.extractLsb' 28 4).toNat = 5 → execute c s = .next t → t = { s with rsp := t.rsp }) ∧
  ∀ (c : Cmd) (s t : State) (r : Rsp), execute c s = .next t → t.rsp = some r → statusField r ≠ 0#4 →
    t = { s with rsp := some r } ∧ ∀ c', execute c' t = execute c' s

/-- R128: which command can answer which status, exactly. -/
def Obligations.StatusesOfEachCommand : Prop :=
  ∀ st : Status,
    (CanAnswer 1 st ↔ st ∈ [.ok, .illegalCommand]) ∧
    (CanAnswer 2 st ↔ st ∈ [.ok, .setTooLarge, .invalidCoordinate, .illegalCommand]) ∧
    (CanAnswer 3 st ↔ st ∈ [.ok, .invalidDigit, .invalidCoordinate, .illegalCommand]) ∧
    (CanAnswer 4 st ↔ st ∈ [.ok, .invalidCoordinate, .illegalCommand]) ∧
    (CanAnswer 5 st ↔ st ∈ [.ok, .ambiguousCandidates, .invalidCoordinate, .illegalCommand]) ∧
    (CanAnswer 6 st ↔ st ∈ [.ok, .invalidDigit, .invalidCoordinate, .illegalCommand]) ∧
    (CanAnswer 7 st ↔ st ∈ [.ok, .bitIndexOutOfRange, .illegalCommand]) ∧
    (CanAnswer 8 st ↔ st ∈ [.ok, .bitIndexOutOfRange, .illegalCommand]) ∧
    (∀ op ∈ [0, 9, 10, 11, 12, 13, 14, 15], CanAnswer op st ↔ st = .illegalCommand)

/-- R66: every command executed twice in a row leaves the state and the response of executing it once; GETC and GETD
change no `M` at all. -/
def Obligations.CommandsAreIdempotent : Prop :=
  ∀ (i : Instr) (s : State), ∃ (m : Store s.width) (r : Rsp),
    exec i s = .next { s with mem := m, rsp := some r } ∧
    exec i { s with mem := m, rsp := some r } = .next { s with mem := m, rsp := some r } ∧
    ((∃ row col, i = .getc row col ∨ i = .getd row col) → m = s.mem)

/-- R11, R141: the step is total: no command word, no step and no run of any length stops. -/
def Obligations.EveryStepAnswersANextState : Prop :=
  (∀ (c : Cmd) (s : State), ∃ t, execute c s = .next t) ∧
  (∀ s : State, ∃ t, step s = .next t) ∧
  (∀ (k : Nat) (s : State), ∃ t, Host.Core.run Sys2Proof.core k s = .next t)

/-- R7: "the same cell-level behaviour for every such `W`": two machines of any two widths that hold the same candidate
sets and the same at their ports stay so in every step, all responses included; after reset they are so. -/
def Obligations.WordWidthDoesNotShow : Prop :=
  (∀ s s' : State, SameCells s s' → ∃ t t', step s = .next t ∧ step s' = .next t' ∧ SameCells t t') ∧
  (∀ w w' : Width, SameCells (State.resetAt w) (State.resetAt w'))

/-! ### The host's driver and the listing syntax -/

/-- R104, R107: SOLVE issues NEW, one COMMIT for each pre-filled cell in row-major order, then 81 GETDs in row-major
order. -/
def Obligations.SolveCommandSequence : Prop :=
  ∀ grid : Grid,
    solveCommands grid =
      0x10000000#32 :: ((prefilled grid).map fun pd => commitWord pd.1 pd.2) ++ cellsRowMajor.map getdWord ∧
    (prefilled grid).map (·.1) = cellsRowMajor.filter (fun p => 0x31 ≤ (grid p).toNat ∧ (grid p).toNat ≤ 0x39) ∧
    (∀ pd ∈ prefilled grid, pd.2.val = (grid pd.1).toNat - 0x31) ∧
    cellsRowMajor.map Cell.index = List.range 81 ∧
    (solveCommands grid).length = 1 + (prefilled grid).length + 81

/-- R104 to R110: what SOLVE returns, for every grid, consistent or not, on any state of an engine of any width. A
pre-filled cell comes back as it was unless a later cell of its row, column or block repeats its character, in which case
it comes back blank; a blank or invalid cell comes back as the one digit its pre-filled peers leave, and blank when they
leave none or several. Character codes and the blank are the model's choice (log entry 9). -/
def Obligations.SolveOutputForEveryGrid : Prop :=
  ∀ (grid : Grid) (s : State), ∃ (t : State) (out : Grid), solve grid s = some (t, out) ∧
    (∀ p : Cell, 0x31 ≤ (grid p).toNat → (grid p).toNat ≤ 0x39 →
      ((∃ q, isPeer p q = true ∧ p.index < q.index ∧ grid q = grid p) → out p = Config.blank) ∧
      ((¬ ∃ q, isPeer p q = true ∧ p.index < q.index ∧ grid q = grid p) → out p = grid p)) ∧
    (∀ p : Cell, ¬ (0x31 ≤ (grid p).toNat ∧ (grid p).toNat ≤ 0x39) →
      (∀ d : Digit, (∀ e : Digit, (∃ q, isPeer p q = true ∧ (grid q).toNat = 0x31 + e.val) ↔ e ≠ d) →
        (out p).toNat = 0x31 + d.val) ∧
      ((¬ ∃ d : Digit, ∀ e : Digit, (∃ q, isPeer p q = true ∧ (grid q).toNat = 0x31 + e.val) ↔ e ≠ d) →
        out p = Config.blank))

/-- R110, scenario 3: "a fully valid, fully solved 9×9 Sudoku (no blanks) fed in and read back must be returned unchanged
cell-for-cell". -/
def Obligations.SolvedGridIsReturnedUnchanged : Prop :=
  ∀ (grid : Grid) (s : State), (∀ p, 0x31 ≤ (grid p).toNat ∧ (grid p).toNat ≤ 0x39) →
    (∀ p q, isPeer p q = true → grid p ≠ grid q) →
    ∃ (t : State) (out : Grid), solve grid s = some (t, out) ∧ ∀ p, out p = grid p

/-- R82, R83: lines of a listing and their words: a command line, a comment, a character literal, an operand out of its
range but inside its field, and operands that do not fit their field. White space is the model's choice (log entry
10). -/
def Obligations.AssemblesListingLines : Prop :=
  assembleLine ['N', 'E', 'W'] = some (some 0x10000000#32) ∧
  assembleLine ['S', 'E', 'T', 'C', ' ', '0', ',', '7', ',', '0', 'x', '0', 'A', 'A', ' ', ';', 'x'] =
    some (some 0x207000AA#32) ∧
  assembleLine ['C', 'O', 'M', 'M', 'I', 'T', ' ', '0', ',', '0', ',', '\'', '5', '\''] = some (some 0x60040000#32) ∧
  assembleLine ['G', 'E', 'T', 'C', ' ', '9', ',', '0'] = some (some 0x49000000#32) ∧
  assembleLine ['G', 'E', 'T', 'C', ' ', '1', '6', ',', '0'] = none ∧
  assembleLine ['C', 'L', 'R', 'B', 'I', 'T', ' ', '6', '5', '5', '3', '6'] = none
end

