-- ==== Sys2Proof/Laws/Bits.lean ====
section
/-! SUPPORT. What the primitives over `M` do, bit by bit: one lemma for each of `BitClear`, `BitSet`, `MemRead` and
`MemWrite` (R49 to R51), and that a store is determined by its bits (R32, R44). -/

namespace Sys2Proof.Machine

variable {w : Width}

/-! ### Arithmetic of the split -/

theorem startBit_lt (w : Width) (x : Nat) : startBit w x < w.bits := Nat.mod_lt _ (bits_pos w)

theorem startWord_startBit (w : Width) (x : Nat) : startWord w x * w.bits + startBit w x = x := Nat.div_add_mod' _ _

theorem startWord_of (w : Width) {i b : Nat} (hb : b < w.bits) : startWord w (i * w.bits + b) = i := by
  simp [startWord, splitOffset, Nat.mul_add_div (bits_pos w), Nat.mul_comm i, Nat.div_eq_of_lt hb]

theorem startBit_of (w : Width) {i b : Nat} (hb : b < w.bits) : startBit w (i * w.bits + b) = b := by
  simp [startBit, splitOffset, Nat.mul_comm i, Nat.mod_eq_of_lt hb]

/-- A bit lies in the word where an access starts exactly when it is at the access's distance from its start bit. -/
theorem same_word_iff (w : Width) (x g : Nat) :
    startWord w x = startWord w g ↔ x + startBit w g = g + startBit w x := by
  cases w <;> simp only [startWord, startBit, splitOffset, Width.bits] <;> omega

/-- A bit lies in the word after the one where an access starts exactly when it is one word's bits further on. -/
theorem next_word_iff (w : Width) (x g : Nat) :
    startWord w x = startWord w g + 1 ↔ x + startBit w g = g + startBit w x + w.bits := by
  cases w <;> simp only [startWord, startBit, splitOffset, Width.bits] <;> omega

theorem nine_le_bits_add_one (w : Width) : 9 ≤ w.bits + 1 := by cases w <;> decide

/-! ### Masks and words -/

theorem getLsbD_ones (N n i : Nat) : (ones N n).getLsbD i = (decide (i < N) && decide (i < n)) := by
  simp [ones, BitVec.getLsbD_ofNat, Nat.testBit_two_pow_sub_one]

theorem getLsbD_lowWord (old : BitVec w.bits) (g n : Nat) (v : BitVec n) (b : Nat) (hb : b < w.bits) :
    (lowWord old g n v).getLsbD b =
      if startBit w g ≤ b ∧ b < startBit w g + nLow w g n then v.getLsbD (b - startBit w g) else old.getLsbD b := by
  simp only [lowWord, BitVec.getLsbD_or, BitVec.getLsbD_and, BitVec.getLsbD_not, BitVec.getLsbD_shiftLeft,
    getLsbD_ones, BitVec.getLsbD_setWidth, hb, decide_true, Bool.true_and]
  by_cases h1 : startBit w g ≤ b
  · by_cases h2 : b < startBit w g + nLow w g n
    · have h3 : b - startBit w g < nLow w g n := by omega
      have h4 : b - startBit w g < n := lt_of_lt_of_le h3 (Nat.min_le_left _ _)
      have h5 : b - startBit w g < w.bits := by omega
      simp [h1, h2, h3, h4, h5, Nat.not_lt.mpr h1]
    · have h3 : ¬ b - startBit w g < nLow w g n := by omega
      simp [h2, h3]
  · simp [h1, Nat.lt_of_not_le h1]

theorem getLsbD_highWord (old : BitVec w.bits) (g n : Nat) (v : BitVec n) (b : Nat) (hb : b < w.bits) :
    (highWord old g n v).getLsbD b = if b < nHigh w g n then v.getLsbD (b + nLow w g n) else old.getLsbD b := by
  simp only [highWord, BitVec.getLsbD_or, BitVec.getLsbD_and, BitVec.getLsbD_not, getLsbD_ones,
    BitVec.getLsbD_setWidth, BitVec.getLsbD_ushiftRight, hb, decide_true, Bool.true_and]
  by_cases h : b < nHigh w g n
  · simp [h, Nat.add_comm]
  · have : ¬ nLow w g n + b < n := by simp only [nHigh] at h; omega
    simp [h, BitVec.getLsbD_of_ge _ _ (Nat.le_of_not_lt this)]

theorem getLsbD_one_shift (b k : Nat) (hb : b < w.bits) :
    (1#w.bits <<< k).getLsbD b = decide (b = k) := by
  simp only [BitVec.getLsbD_shiftLeft, BitVec.getLsbD_one, hb, decide_true, Bool.true_and]
  by_cases h : b < k
  · simp [h, Nat.ne_of_lt h]
  · have : (b - k = 0) ↔ b = k := by omega
    simp [h, this, bits_pos w]

/-! ### Stores by their bits -/

theorem bit_congr (m : Store w) {x y : Nat} (h : x = y) (hx : x < w.nwords * w.bits) (hy : y < w.nwords * w.bits) :
    bit m x hx = bit m y hy := by subst h; rfl

/-- Two stores with the same bits are the same store (R44). -/
theorem store_ext {m m' : Store w} (h : ∀ x hx, bit m x hx = bit m' x hx) : m = m' := by
  apply Vector.ext
  intro i hi
  apply BitVec.eq_of_getLsbD_eq
  intro b hb
  have hx : i * w.bits + b < w.nwords * w.bits :=
    calc i * w.bits + b < (i + 1) * w.bits := by rw [Nat.succ_mul]; omega
      _ ≤ w.nwords * w.bits := Nat.mul_le_mul_right _ hi
  have := h _ hx
  simpa only [bit, startWord_of w hb, startBit_of w hb] using this

theorem bit_freshStore (w : Width) (x : Nat) (hx : x < w.nwords * w.bits) : bit (freshStore w) x hx = true := by
  simp [bit, freshStore, startBit_lt]

theorem bit_bitClear (m : Store w) (g : Nat) (h) (x : Nat) (hx) :
    bit (bitClear m g h) x hx = if x = g then false else bit m x hx := by
  have e : startWord w x = startWord w g ∧ startBit w x = startBit w g ↔ x = g := by
    constructor
    · rintro ⟨h1, h2⟩; rw [← startWord_startBit w x, h1, h2, startWord_startBit]
    · rintro rfl; exact ⟨rfl, rfl⟩
  simp only [bit, bitClear, Vector.getElem_set]
  by_cases hw : startWord w g = startWord w x
  · simp only [hw, if_true, BitVec.getLsbD_and, BitVec.getLsbD_not, startBit_lt, decide_true, Bool.true_and,
      getLsbD_one_shift _ _ (startBit_lt w x)]
    by_cases hb : startBit w x = startBit w g
    · simp [e.mp ⟨hw.symm, hb⟩]
    · have : x ≠ g := fun h => hb (h ▸ rfl)
      simp [hb, this]
  · have : x ≠ g := fun h => hw (h ▸ rfl)
    simp [hw, this]

theorem bit_bitSet (m : Store w) (g : Nat) (h) (x : Nat) (hx) :
    bit (bitSet m g h) x hx = if x = g then true else bit m x hx := by
  have e : startWord w x = startWord w g ∧ startBit w x = startBit w g ↔ x = g := by
    constructor
    · rintro ⟨h1, h2⟩; rw [← startWord_startBit w x, h1, h2, startWord_startBit]
    · rintro rfl; exact ⟨rfl, rfl⟩
  simp only [bit, bitSet, Vector.getElem_set]
  by_cases hw : startWord w g = startWord w x
  · simp only [hw, if_true, BitVec.getLsbD_or, getLsbD_one_shift _ _ (startBit_lt w x)]
    by_cases hb : startBit w x = startBit w g
    · simp [e.mp ⟨hw.symm, hb⟩]
    · have : x ≠ g := fun h => hb (h ▸ rfl)
      simp [hb, this]
  · have : x ≠ g := fun h => hw (h ▸ rfl)
    simp [hw, this]

/-- An in-range access stays inside `M`. -/
theorem InRange.lt_bits {g n k : Nat} (h : InRange g n) (hk : k < n) : g + k < w.nwords * w.bits :=
  Nat.lt_of_lt_of_le (by omega : g + k < Config.totalBits) (totalBits_le w)

/-- `MemRead` returns the value "whose bit `k` is global bit `g + k`" (R50), for accesses of up to 9 bits. -/
theorem getLsbD_memRead (m : Store w) (g n : Nat) (h : InRange g n) (hn : n ≤ 9) (k : Nat) (hk : k < n) :
    (memRead m g n h).getLsbD k = bit m (g + k) (h.lt_bits hk) := by
  have hsb := startBit_lt w g
  have hsx := startBit_lt w (g + k)
  have h9 := nine_le_bits_add_one w
  have hs := same_word_iff w (g + k) g
  have hnx := next_word_iff w (g + k) g
  have hLow : nLow w g n = min n (w.bits - startBit w g) := rfl
  have hHigh : nHigh w g n = n - nLow w g n := rfl
  by_cases hlow : k < nLow w g n
  · have hw : startWord w (g + k) = startWord w g ∧ startBit w (g + k) = startBit w g + k := by
      have e := startWord_startBit w g
      have : g + k = startWord w g * w.bits + (startBit w g + k) := by omega
      have hb : startBit w g + k < w.bits := by omega
      rw [this, startWord_of w hb, startBit_of w hb]
      exact ⟨rfl, rfl⟩
    have hkb : k < w.bits := by omega
    by_cases hh : nHigh w g n = 0
    · simp [memRead, hh, bit, hw.1, hw.2, getLsbD_ones, hlow, hk, hkb]
    · simp [memRead, hh, bit, hw.1, hw.2, getLsbD_ones, hlow, hk, hkb]
  · have hh : nHigh w g n ≠ 0 := by omega
    have hw : startWord w (g + k) = startWord w g + 1 ∧ startBit w (g + k) = k - nLow w g n := by
      have e := startWord_startBit w g
      have hb : k - nLow w g n < w.bits := by omega
      have : g + k = (startWord w g + 1) * w.bits + (k - nLow w g n) := by rw [Nat.succ_mul]; omega
      rw [this, startWord_of w hb, startBit_of w hb]
      exact ⟨rfl, rfl⟩
    have hkb : k - nLow w g n < w.bits := by omega
    have hkh : k - nLow w g n < nHigh w g n := by omega
    simp [memRead, hh, bit, hw.1, hw.2, getLsbD_ones, hlow, hk, hkb, hkh]

/-- `MemWrite` "makes global bit `g + k` equal to `v[k]` for `k = 0..n-1` and changes no other bit" (R51, R54), for
accesses of up to 9 bits. -/
theorem bit_memWrite (m : Store w) (g n : Nat) (v : BitVec n) (h : InRange g n) (hn : n ≤ 9) (x : Nat) (hx) :
    bit (memWrite m g n v h) x hx = if g ≤ x ∧ x < g + n then v.getLsbD (x - g) else bit m x hx := by
  have hsb := startBit_lt w g
  have hsx := startBit_lt w x
  have h9 := nine_le_bits_add_one w
  have hs := same_word_iff w x g
  have hnx := next_word_iff w x g
  have hLow : nLow w g n = min n (w.bits - startBit w g) := rfl
  have hHigh : nHigh w g n = n - nLow w g n := rfl
  have e := startWord_startBit w g
  have e' := startWord_startBit w x
  by_cases h0 : startWord w x = startWord w g
  · have h0' := hs.mp h0
    have step : bit (memWrite m g n v h) x hx = (lowWord (m[startWord w x]'(startWord_lt hx)) g n v).getLsbD (startBit w x) := by
      by_cases hh : nHigh w g n = 0 <;> simp [memWrite, hh, bit, h0]
    rw [step, getLsbD_lowWord _ _ _ _ _ hsx]
    have hc : (startBit w g ≤ startBit w x ∧ startBit w x < startBit w g + nLow w g n) ↔ (g ≤ x ∧ x < g + n) := by omega
    by_cases hin : g ≤ x ∧ x < g + n
    · have : startBit w x - startBit w g = x - g := by omega
      simp only [hc.mpr hin, hin, and_self, if_true, this]
    · simp only [if_neg (mt hc.mp hin), if_neg hin, bit]
  · by_cases h1 : startWord w x = startWord w g + 1
    · have h1' := hnx.mp h1
      by_cases hh : nHigh w g n = 0
      · have step : bit (memWrite m g n v h) x hx = bit m x hx := by
          simp [memWrite, hh, bit, h1]
        have : ¬ (g ≤ x ∧ x < g + n) := by omega
        rw [step, if_neg this]
      · have step : bit (memWrite m g n v h) x hx =
            (highWord (m[startWord w x]'(startWord_lt hx)) g n v).getLsbD (startBit w x) := by
          simp [memWrite, hh, bit, h1]
        rw [step, getLsbD_highWord _ _ _ _ _ hsx]
        have hc : startBit w x < nHigh w g n ↔ (g ≤ x ∧ x < g + n) := by omega
        by_cases hin : g ≤ x ∧ x < g + n
        · have : startBit w x + nLow w g n = x - g := by omega
          simp only [hc.mpr hin, hin, and_self, if_true, this]
        · simp only [if_neg (mt hc.mp hin), if_neg hin, bit]
    · have step : bit (memWrite m g n v h) x hx = bit m x hx := by
        have a0 : startWord w g ≠ startWord w x := fun h => h0 h.symm
        have a1 : startWord w g + 1 ≠ startWord w x := fun h => h1 h.symm
        by_cases hh : nHigh w g n = 0 <;> simp [memWrite, hh, bit, a0, a1]
      have : ¬ (g ≤ x ∧ x < g + n) := by
        rintro ⟨hg, hx'⟩
        obtain ⟨d, rfl⟩ := Nat.exists_eq_add_of_le hg
        by_cases hd : startBit w g + d < w.bits
        · exact h0 (by
            have : g + d = startWord w g * w.bits + (startBit w g + d) := by omega
            rw [this, startWord_of w hd])
        · have hb : startBit w g + d - w.bits < w.bits := by omega
          exact h1 (by
            have : g + d = (startWord w g + 1) * w.bits + (startBit w g + d - w.bits) := by rw [Nat.succ_mul]; omega
            rw [this, startWord_of w hb])
      rw [step, if_neg this]

end Sys2Proof.Machine
end

