-- ==== Sys2Proof/Laws/Cells.lean ====
section
/-! SUPPORT. The store seen as 81 candidate sets (R32): what each operation does to every cell's field, the peers of a
cell (R30), and that every store operation keeps the canonical form of the tail padding (R33). -/

namespace Sys2Proof.Machine

variable {w : Width}

/-! ### Cells and bit indices -/

theorem offset_eq (p : Cell) : p.offset = 9 * p.index := Nat.mul_comm _ _

theorem cell_eq_of_index {p q : Cell} (h : p.index = q.index) : p = q := by
  rcases p with ⟨r, c⟩
  rcases q with ⟨r', c'⟩
  simp only [Cell.index, Config.gridWidth] at h
  simp only [Cell.mk.injEq, Fin.ext_iff]
  omega

/-- A bit index names one digit of one cell (R103). -/
theorem bitOf_inj {p q : Cell} {d e : Digit} : (p.bitOf d).val = (q.bitOf e).val ↔ p = q ∧ d = e := by
  constructor
  · intro h
    simp only [Cell.bitOf, offset_eq] at h
    exact ⟨cell_eq_of_index (by omega), Fin.ext (by omega)⟩
  · rintro ⟨rfl, rfl⟩; rfl

theorem bitOf_lt (w : Width) (p : Cell) (d : Digit) : p.offset + d.val < w.nwords * w.bits :=
  (Cell.inRange p).lt_bits d.isLt

/-- Every addressable bit is a digit of a cell (R103). -/
theorem bitOf_cell_digit (g : BitIndex) : g.cell.bitOf g.digit = g := by
  apply Fin.ext
  have := g.isLt
  simp only [Cell.bitOf, Cell.offset, Cell.index, BitIndex.cell, BitIndex.digit, Cell.ofIndex, Config.gridWidth,
    Config.fieldBits]
  omega

/-! ### Fields -/

/-- Bit `d` of a cell's field is global bit `offset + d` (R45). -/
theorem contains_readField (m : Store w) (p : Cell) (d : Digit) :
    contains (readField m p) d = bit m (p.offset + d.val) (bitOf_lt w p d) :=
  getLsbD_memRead m _ 9 (Cell.inRange p) (by decide) d.val d.isLt

theorem candidateSet_ext {a b : CandidateSet} (h : ∀ d : Digit, contains a d = contains b d) : a = b :=
  BitVec.eq_of_getLsbD_eq fun i hi => h ⟨i, hi⟩

theorem contains_fromDigit (d e : Digit) : contains (fromDigit d) e = decide (e = d) := by
  revert d e; decide

theorem contains_without (s : CandidateSet) (d e : Digit) :
    contains (without s d) e = (contains s e && decide (e ≠ d)) := by
  have h := contains_fromDigit d e
  simp only [contains] at h
  simp only [contains, without, BitVec.getLsbD_and, BitVec.getLsbD_not, h, e.isLt, decide_true, Bool.true_and,
    decide_not]

/-- A field write replaces the cell's candidate set and no other cell's (R54, R56). -/
theorem readField_writeField (m : Store w) (p q : Cell) (v : CandidateSet) :
    readField (writeField m p v) q = if q = p then v else readField m q := by
  apply candidateSet_ext
  intro d
  rw [contains_readField, writeField, bit_memWrite _ _ _ _ _ (by decide)]
  have hd := d.isLt
  by_cases h : q = p
  · subst h; simp [contains]
  · have : ¬ (p.offset ≤ q.offset + d.val ∧ q.offset + d.val < p.offset + 9) := by
      have : q.index ≠ p.index := fun e => h (cell_eq_of_index e)
      simp only [offset_eq]
      omega
    rw [if_neg this, if_neg h, contains_readField]

theorem readField_clearIndex (m : Store w) (p q : Cell) (d : Digit) :
    readField (clearIndex m (p.bitOf d)) q = if q = p then without (readField m q) d else readField m q := by
  apply candidateSet_ext
  intro e
  have hi := bitOf_inj (p := q) (q := p) (d := e) (e := d)
  simp only [Cell.bitOf] at hi
  rw [contains_readField, clearIndex, bit_bitClear]
  simp only [Cell.bitOf, hi]
  by_cases h : q = p
  · by_cases he : e = d <;> simp [h, he, contains_without, contains_readField]
  · simp [h, contains_readField]

theorem contains_union_fromDigit (s : CandidateSet) (d e : Digit) :
    contains (union s (fromDigit d)) e = (contains s e || decide (e = d)) := by
  have h := contains_fromDigit d e
  simp only [contains] at h
  simp only [contains, union, BitVec.getLsbD_or, h]

theorem readField_setIndex (m : Store w) (p q : Cell) (d : Digit) :
    readField (setIndex m (p.bitOf d)) q =
      if q = p then union (readField m q) (fromDigit d) else readField m q := by
  apply candidateSet_ext
  intro e
  have hi := bitOf_inj (p := q) (q := p) (d := e) (e := d)
  simp only [Cell.bitOf] at hi
  rw [contains_readField, setIndex, bit_bitSet]
  simp only [Cell.bitOf, hi]
  by_cases h : q = p
  · by_cases he : e = d <;> simp [h, he, contains_union_fromDigit, contains_readField]
  · simp [h, contains_readField]

theorem readField_freshStore (p : Cell) : readField (freshStore w) p = Config.any := by
  apply candidateSet_ext
  intro d
  rw [contains_readField, bit_freshStore]
  revert d; decide

theorem without_without (s : CandidateSet) (d : Digit) : without (without s d) d = without s d := by
  apply candidateSet_ext
  intro e
  simp [contains_without]

/-- Clearing a digit in a list of cells removes it from those cells' sets and changes nothing else; repeats and order do
not matter (R96). -/
theorem readField_eliminate (m : Store w) (d : Digit) (qs : List Cell) (x : Cell) :
    readField (eliminate m d qs) x = if x ∈ qs then without (readField m x) d else readField m x := by
  induction qs generalizing m with
  | nil => simp [eliminate]
  | cons q qs ih =>
    have : eliminate m d (q :: qs) = eliminate (clearIndex m (q.bitOf d)) d qs := rfl
    rw [this, ih, readField_clearIndex]
    by_cases h : x = q <;> by_cases h' : x ∈ qs <;> simp [h, h', without_without]

/-! ### Peers -/

theorem mem_nine (k : Fin 9) : k ∈ nine := by revert k; decide

theorem mem_three (k : Fin 3) : k ∈ three := by revert k; decide

theorem mem_rowGroup (p q : Cell) : q ∈ rowGroup p ↔ q.row = p.row := by
  rcases q with ⟨r, c⟩
  simp [rowGroup, mem_nine, eq_comm]

theorem mem_colGroup (p q : Cell) : q ∈ colGroup p ↔ q.col = p.col := by
  rcases q with ⟨r, c⟩
  simp [colGroup, mem_nine, eq_comm]

/-- `toGridPoint(block(p), offsetIn(p)) = p` (R29). -/
theorem toGridPoint_block_offsetIn (p : Cell) : toGridPoint p.block p.offsetIn = p := by
  rcases p with ⟨r, c⟩
  simp only [toGridPoint, Cell.block, Cell.offsetIn, Cell.mk.injEq, Fin.ext_iff]
  omega

theorem block_toGridPoint (b : Block) (o : BlockPoint) : (toGridPoint b o).block = b := by
  rcases b with ⟨⟨b, _⟩, ⟨b', _⟩⟩
  rcases o with ⟨⟨o, _⟩, ⟨o', _⟩⟩
  simp only [toGridPoint, Cell.block, Block.mk.injEq, Fin.ext_iff]
  omega

theorem mem_blockGroup (p q : Cell) : q ∈ blockGroup p ↔ q.block = p.block := by
  simp only [blockGroup, List.mem_flatMap, List.mem_map]
  constructor
  · rintro ⟨i, -, j, -, rfl⟩
    exact block_toGridPoint _ _
  · intro h
    exact ⟨q.offsetIn.offsetRow, mem_three _, q.offsetIn.offsetColumn, mem_three _, h ▸ toGridPoint_block_offsetIn q⟩

/-- The listed peers are the cells that share a row, column or block with the cell, itself left out (R30). -/
theorem mem_peers (p q : Cell) : q ∈ peers p ↔ isPeer p q = true := by
  simp only [peers, List.mem_append, List.mem_filter, mem_rowGroup, mem_colGroup, mem_blockGroup, isPeer,
    decide_eq_true_eq]
  have : q.row ≠ p.row → q ≠ p := fun h e => h (e ▸ rfl)
  tauto

theorem isPeer_symm (p q : Cell) : isPeer p q = isPeer q p := by
  simp only [isPeer, ne_comm, eq_comm]

theorem isPeer_irrefl (p : Cell) : isPeer p p = false := by simp [isPeer]

/-- COMMIT in cell terms (R94): the cell becomes `{d}`, each peer loses `d`, every other cell stays. -/
theorem readField_commitStore (m : Store w) (p x : Cell) (d : Digit) :
    readField (commitStore m p d) x =
      if x = p then fromDigit d else if isPeer p x then without (readField m x) d else readField m x := by
  simp only [commitStore, readField_writeField, readField_eliminate, mem_peers]

/-! ### The tail padding -/

/-- No store operation of a command but the fill of NEW touches a bit at or above 729 (R33). -/
theorem bit_writeField_padding (m : Store w) (p : Cell) (v : CandidateSet) (x : Nat) (hx) (h : 729 ≤ x) :
    bit (writeField m p v) x hx = bit m x hx := by
  have : p.offset + 9 ≤ 729 := p.offset_add_nine_le
  rw [writeField, bit_memWrite _ _ _ _ _ (by decide), if_neg (by omega)]

theorem bit_clearIndex_padding (m : Store w) (g : BitIndex) (x : Nat) (hx) (h : 729 ≤ x) :
    bit (clearIndex m g) x hx = bit m x hx := by
  have := g.isLt
  rw [clearIndex, bit_bitClear, if_neg (by omega)]

theorem bit_setIndex_padding (m : Store w) (g : BitIndex) (x : Nat) (hx) (h : 729 ≤ x) :
    bit (setIndex m g) x hx = bit m x hx := by
  have := g.isLt
  rw [setIndex, bit_bitSet, if_neg (by omega)]

theorem bit_eliminate_padding (m : Store w) (d : Digit) (qs : List Cell) (x : Nat) (hx) (h : 729 ≤ x) :
    bit (eliminate m d qs) x hx = bit m x hx := by
  induction qs generalizing m with
  | nil => rfl
  | cons q qs ih => exact (ih _).trans (bit_clearIndex_padding m _ x hx h)

theorem bit_commitStore_padding (m : Store w) (p : Cell) (d : Digit) (x : Nat) (hx) (h : 729 ≤ x) :
    bit (commitStore m p d) x hx = bit m x hx :=
  (bit_writeField_padding _ _ _ x hx h).trans (bit_eliminate_padding _ _ _ x hx h)

/-! ### Every store operation keeps the canonical form -/

theorem wf_of_padding {m m' : Store w} (h : ∀ x hx, 729 ≤ x → bit m' x hx = bit m x hx) (hm : Memory.wf m) :
    Memory.wf m' := fun k => (h _ _ (Nat.le_add_right _ _)).trans (hm k)

theorem wf_freshStore (w : Width) : Memory.wf (freshStore w) := fun _ => bit_freshStore _ _ _

theorem wf_writeField (m : Store w) (p : Cell) (v : CandidateSet) (hm : Memory.wf m) : Memory.wf (writeField m p v) :=
  wf_of_padding (bit_writeField_padding m p v) hm

theorem wf_clearIndex (m : Store w) (g : BitIndex) (hm : Memory.wf m) : Memory.wf (clearIndex m g) :=
  wf_of_padding (bit_clearIndex_padding m g) hm

theorem wf_setIndex (m : Store w) (g : BitIndex) (hm : Memory.wf m) : Memory.wf (setIndex m g) :=
  wf_of_padding (bit_setIndex_padding m g) hm

theorem wf_eliminate (m : Store w) (d : Digit) (qs : List Cell) (hm : Memory.wf m) : Memory.wf (eliminate m d qs) :=
  wf_of_padding (bit_eliminate_padding m d qs) hm

theorem wf_commitStore (m : Store w) (p : Cell) (d : Digit) (hm : Memory.wf m) : Memory.wf (commitStore m p d) :=
  wf_of_padding (bit_commitStore_padding m p d) hm

/-- A store is determined by its 81 candidate sets and its padding bits (R32). -/
theorem store_eq_of_fields {m m' : Store w} (h : ∀ p, readField m p = readField m' p)
    (hp : ∀ k : Fin w.pad, bit m (Config.totalBits + k.val) (padding_lt_bits w k) =
      bit m' (Config.totalBits + k.val) (padding_lt_bits w k)) : m = m' := by
  apply store_ext
  intro x hx
  by_cases hlt : x < 729
  · have e : x = (BitIndex.cell ⟨x, hlt⟩).offset + (BitIndex.digit ⟨x, hlt⟩).val :=
      congrArg Fin.val (bitOf_cell_digit ⟨x, hlt⟩).symm
    rw [bit_congr m e hx (bitOf_lt w _ _), bit_congr m' e hx (bitOf_lt w _ _), ← contains_readField,
      ← contains_readField, h]
  · obtain ⟨k, rfl⟩ := Nat.exists_eq_add_of_le (Nat.le_of_not_lt hlt)
    exact hp ⟨k, Nat.lt_sub_of_add_lt (Nat.add_comm k _ ▸ hx)⟩

/-- Well-formed stores with the same candidate sets are equal (R33, D7). -/
theorem store_eq_of_wf {m m' : Store w} (hm : Memory.wf m) (hm' : Memory.wf m')
    (h : ∀ p, readField m p = readField m' p) : m = m' :=
  store_eq_of_fields h fun k => (hm k).trans (hm' k).symm

end Sys2Proof.Machine
end

