-- ==== Sys2Proof/Laws/Flags.lean ====
section
/-! SUPPORT. The fields of a response word, and the word of an `OK` response (R74). -/

namespace Sys2Proof.Machine

@[simp] theorem statusField_responseWord (st : Status) (d : BitVec 9) : statusField (responseWord st d) = statusCode st := by
  refine BitVec.eq_of_getLsbD_eq fun k hk => ?_
  simp only [statusField, responseWord, BitVec.getLsbD_extractLsb', BitVec.getLsbD_append, hk, decide_true, Bool.true_and]
  rw [if_neg (by omega), if_neg (by omega)]
  congr 1
  omega

@[simp] theorem dataField_responseWord (st : Status) (d : BitVec 9) : dataField (responseWord st d) = d := by
  refine BitVec.eq_of_getLsbD_eq fun k hk => ?_
  simp only [dataField, responseWord, BitVec.getLsbD_extractLsb', BitVec.getLsbD_append, hk, decide_true, Bool.true_and,
    Nat.zero_add, if_true]

/-- `{4'b0, 3'b0, data}` is the data in 16 bits. -/
theorem responseWord_ok (d : BitVec 9) : responseWord .ok d = d.setWidth 16 := by
  refine BitVec.eq_of_getLsbD_eq fun k hk => ?_
  simp only [responseWord, statusCode, BitVec.getLsbD_append, BitVec.getLsbD_setWidth, hk, decide_true, Bool.true_and]
  by_cases h : k < 9
  · rw [if_pos h]
  · rw [if_neg h, BitVec.getLsbD_of_ge d k (by omega)]
    simp

theorem statusCode_injective {a b : Status} (h : statusCode a = statusCode b) : a = b := by
  revert h
  cases a <;> cases b <;> decide

end Sys2Proof.Machine
end

