-- ==== Sys2Proof/Laws/Operands.lean ====
section
/-! SUPPORT. When the range checks of the operands succeed and what they give (R18, R20, R28, R101), and that they agree
with well-formedness. -/

namespace Sys2Proof

theorem digitOK_iff (x : BitVec 4) : digitOK x = true ↔ x.toNat ≤ 8 := by simp [digitOK]

theorem coordOK_iff (x : BitVec 4) : coordOK x = true ↔ x.toNat ≤ 8 := by simp [coordOK]

theorem bitIndexOK_iff (x : BitVec 16) : bitIndexOK x = true ↔ x.toNat ≤ 728 := by simp [bitIndexOK]

/-- `(x & not_16(0x1FF)) = 0`, "i.e. `x ≤ 0x1FF`" (R20). -/
theorem setOK_iff (x : BitVec 16) : setOK x = true ↔ x.toNat ≤ 0x1FF := by
  rw [setOK, decide_eq_true_eq]
  constructor
  · intro h
    have hx : x = x &&& 0x01FF#16 := by
      apply BitVec.eq_of_getLsbD_eq
      intro i hi
      have := congrArg (fun v => v.getLsbD i) h
      simp only [BitVec.getLsbD_and, BitVec.getLsbD_not, hi, decide_true, Bool.true_and, BitVec.getLsbD_zero] at this
      rw [BitVec.getLsbD_and]
      cases hb : x.getLsbD i <;> simp_all
    rw [hx, BitVec.toNat_and]
    exact Nat.and_le_right
  · intro h
    apply BitVec.eq_of_getLsbD_eq
    intro i hi
    rw [BitVec.getLsbD_and, BitVec.getLsbD_zero]
    by_cases hi9 : i < 9
    · have : (~~~0x01FF#16).getLsbD i = false := by interval_cases i <;> decide
      rw [this, Bool.and_false]
    · have : x.getLsbD i = false :=
        Nat.testBit_lt_two_pow (lt_of_lt_of_le (by omega : x.toNat < 2 ^ 9) (Nat.pow_le_pow_right (by decide) (by omega)))
      rw [this, Bool.false_and]

theorem digit_construct_ok {raw : BitVec 4} {d : Digit} (h : raw.toNat = d.val) : Digit.construct raw = .ok d := by
  have := d.isLt
  have hk : digitOK raw = true := (digitOK_iff raw).mpr (by omega)
  simp only [Digit.construct, hk, dite_true, h]

theorem digit_construct_error {raw : BitVec 4} (h : 8 < raw.toNat) : Digit.construct raw = .error .invalidDigit := by
  have hk : ¬ digitOK raw = true := fun e => by have := (digitOK_iff raw).mp e; omega
  simp only [Digit.construct, dif_neg hk]

theorem cell_construct_ok {row col : BitVec 4} {p : Cell} (hr : row.toNat = p.row.val) (hc : col.toNat = p.col.val) :
    Cell.construct row col = .ok p := by
  have := p.row.isLt
  have := p.col.isLt
  have hk : coordOK row = true ∧ coordOK col = true :=
    ⟨(coordOK_iff row).mpr (by omega), (coordOK_iff col).mpr (by omega)⟩
  rcases p with ⟨⟨r, _⟩, ⟨c, _⟩⟩
  simp only [Cell.construct, dif_pos hk, hr, hc]

theorem cell_construct_error {row col : BitVec 4} (h : 8 < row.toNat ∨ 8 < col.toNat) :
    Cell.construct row col = .error .invalidCoordinate := by
  have hk : ¬ (coordOK row = true ∧ coordOK col = true) := by
    rw [coordOK_iff, coordOK_iff]; omega
  simp only [Cell.construct, dif_neg hk]

theorem set_construct_ok {raw : BitVec 16} {v : CandidateSet} (h : raw.toNat = v.toNat) :
    CandidateSet.construct raw = .ok v := by
  have hv := v.isLt
  have hk : setOK raw = true := (setOK_iff raw).mpr (by omega)
  have : raw.setWidth 9 = v := by
    apply BitVec.eq_of_toNat_eq
    rw [BitVec.toNat_setWidth, h, Nat.mod_eq_of_lt hv]
  simp only [CandidateSet.construct, hk, if_true, this]

theorem set_construct_error {raw : BitVec 16} (h : 0x1FF < raw.toNat) :
    CandidateSet.construct raw = .error .setTooLarge := by
  have hk : ¬ setOK raw = true := fun e => by have := (setOK_iff raw).mp e; omega
  simp only [CandidateSet.construct, if_neg hk]

theorem index_construct_ok {raw : BitVec 16} {g : BitIndex} (h : raw.toNat = g.val) : BitIndex.construct raw = .ok g := by
  have := g.isLt
  have hk : bitIndexOK raw = true := (bitIndexOK_iff raw).mpr (by omega)
  simp only [BitIndex.construct, hk, dite_true, h]

theorem index_construct_error {raw : BitVec 16} (h : 728 < raw.toNat) :
    BitIndex.construct raw = .error .bitIndexOutOfRange := by
  have hk : ¬ bitIndexOK raw = true := fun e => by have := (bitIndexOK_iff raw).mp e; omega
  simp only [BitIndex.construct, dif_neg hk]

/-- Either the coordinates are a cell's or one is out of range. -/
theorem coords_cases (row col : BitVec 4) :
    (∃ p : Cell, row.toNat = p.row.val ∧ col.toNat = p.col.val) ∨ (8 < row.toNat ∨ 8 < col.toNat) := by
  by_cases h : row.toNat ≤ 8 ∧ col.toNat ≤ 8
  · exact .inl ⟨⟨⟨row.toNat, by omega⟩, ⟨col.toNat, by omega⟩⟩, rfl, rfl⟩
  · exact .inr (by omega)

theorem digit_cases (raw : BitVec 4) : (∃ d : Digit, raw.toNat = d.val) ∨ 8 < raw.toNat := by
  by_cases h : raw.toNat ≤ 8
  · exact .inl ⟨⟨raw.toNat, by omega⟩, rfl⟩
  · exact .inr (by omega)

theorem set_cases (raw : BitVec 16) : (∃ v : CandidateSet, raw.toNat = v.toNat) ∨ 0x1FF < raw.toNat := by
  by_cases h : raw.toNat ≤ 0x1FF
  · exact .inl ⟨BitVec.ofNat 9 raw.toNat, by rw [BitVec.toNat_ofNat, Nat.mod_eq_of_lt (by omega)]⟩
  · exact .inr (by omega)

theorem index_cases (raw : BitVec 16) : (∃ g : BitIndex, raw.toNat = g.val) ∨ 728 < raw.toNat := by
  by_cases h : raw.toNat ≤ 728
  · exact .inl ⟨⟨raw.toNat, by omega⟩, rfl⟩
  · exact .inr (by omega)

/-- The two outcomes of the coordinate check of R81, beside the construction's. -/
theorem coordError_construct (row col : BitVec 4) :
    (coordError row col = none ∧ ∃ p, Cell.construct row col = .ok p) ∨
    (coordError row col = some .invalidCoordinate ∧ Cell.construct row col = .error .invalidCoordinate) := by
  simp only [coordError, Cell.construct]
  by_cases h : coordOK row = true ∧ coordOK col = true
  · exact .inl ⟨by simp [h], _, dif_pos h⟩
  · exact .inr ⟨by simpa using h, dif_neg h⟩

/-- The two outcomes of the digit check. -/
theorem digitError_construct (digit : BitVec 4) :
    (digitError digit = none ∧ ∃ d, Digit.construct digit = .ok d) ∨
    (digitError digit = some .invalidDigit ∧ Digit.construct digit = .error .invalidDigit) := by
  simp only [digitError, Digit.construct]
  by_cases h : digitOK digit = true
  · exact .inl ⟨if_pos h, _, dif_pos h⟩
  · exact .inr ⟨if_neg h, dif_neg h⟩

/-- The two outcomes of the set check. -/
theorem setError_construct (set : BitVec 16) :
    (setError set = none ∧ ∃ v, CandidateSet.construct set = .ok v) ∨
    (setError set = some .setTooLarge ∧ CandidateSet.construct set = .error .setTooLarge) := by
  simp only [setError, CandidateSet.construct, setOK_iff]
  by_cases h : set.toNat ≤ 0x1FF
  · exact .inl ⟨if_pos h, _, if_pos h⟩
  · exact .inr ⟨if_neg h, if_neg h⟩

/-- The two outcomes of the index check. -/
theorem indexError_construct (index : BitVec 16) :
    (indexError index = none ∧ ∃ g, BitIndex.construct index = .ok g) ∨
    (indexError index = some .bitIndexOutOfRange ∧ BitIndex.construct index = .error .bitIndexOutOfRange) := by
  simp only [indexError, BitIndex.construct]
  by_cases h : bitIndexOK index = true
  · exact .inl ⟨if_pos h, _, dif_pos h⟩
  · exact .inr ⟨if_neg h, dif_neg h⟩

/-- The operand checks of R81 find nothing exactly on a well-formed instruction. -/
theorem operandError_eq_none_iff (i : Instr) : operandError i = none ↔ i.WellFormed := by
  cases i <;> simp only [operandError, coordError, digitError, setError, indexError, Instr.WellFormed] <;>
    (repeat' split) <;> simp_all [coordOK_iff, digitOK_iff, bitIndexOK_iff]

/-- `toDigit` gives a digit exactly on that digit's singleton set (R26). -/
theorem toDigit_fromDigit (d : Digit) : toDigit (fromDigit d) = .ok d := by revert d; decide

end Sys2Proof
end

