-- ==== Sys2Proof/Laws/State.lean ====
section
/-! SUPPORT. One lemma for each field of State under each update, so that no later proof unfolds a record update. -/

namespace Sys2Proof.Machine

/-! ### `withMem` -/

@[simp] theorem State.withMem_width (s : State) (m) : (s.withMem m).width = s.width := rfl
@[simp] theorem State.withMem_mem (s : State) (m) : (s.withMem m).mem = m := rfl
@[simp] theorem State.withMem_rsp (s : State) (m) : (s.withMem m).rsp = s.rsp := rfl
@[simp] theorem State.withMem_inputs (s : State) (m) : (s.withMem m).inputs = s.inputs := rfl
@[simp] theorem State.withMem_accepted (s : State) (m) : (s.withMem m).accepted = s.accepted := rfl
@[simp] theorem State.withMem_taken (s : State) (m) : (s.withMem m).taken = s.taken := rfl
@[simp] theorem State.withMem_self (s : State) : s.withMem s.mem = s := rfl
@[simp] theorem State.cand_withMem (s : State) (m) (p : Cell) : (s.withMem m).cand p = readField m p := rfl

/-! ### `withRsp` -/

@[simp] theorem State.withRsp_width (s : State) (r) : (s.withRsp r).width = s.width := rfl
@[simp] theorem State.withRsp_mem (s : State) (r) : (s.withRsp r).mem = s.mem := rfl
@[simp] theorem State.withRsp_rsp (s : State) (r) : (s.withRsp r).rsp = some r := rfl
@[simp] theorem State.withRsp_inputs (s : State) (r) : (s.withRsp r).inputs = s.inputs := rfl
@[simp] theorem State.withRsp_accepted (s : State) (r) : (s.withRsp r).accepted = s.accepted := rfl
@[simp] theorem State.withRsp_taken (s : State) (r) : (s.withRsp r).taken = s.taken := rfl
@[simp] theorem State.cand_withRsp (s : State) (r) (p : Cell) : (s.withRsp r).cand p = s.cand p := rfl

/-! ### `dropInput` -/

@[simp] theorem State.dropInput_width (s : State) : s.dropInput.width = s.width := rfl
@[simp] theorem State.dropInput_mem (s : State) : s.dropInput.mem = s.mem := rfl
@[simp] theorem State.dropInput_rsp (s : State) : s.dropInput.rsp = s.rsp := rfl
@[simp] theorem State.dropInput_inputs (s : State) : s.dropInput.inputs = s.inputs.tail := rfl
@[simp] theorem State.dropInput_accepted (s : State) : s.dropInput.accepted = s.accepted := rfl
@[simp] theorem State.dropInput_taken (s : State) : s.dropInput.taken = s.taken := rfl
@[simp] theorem State.cand_dropInput (s : State) (p : Cell) : s.dropInput.cand p = s.cand p := rfl

/-! ### `recordAccepted` -/

@[simp] theorem State.recordAccepted_width (s : State) (c) : (s.recordAccepted c).width = s.width := rfl
@[simp] theorem State.recordAccepted_mem (s : State) (c) : (s.recordAccepted c).mem = s.mem := rfl
@[simp] theorem State.recordAccepted_rsp (s : State) (c) : (s.recordAccepted c).rsp = s.rsp := rfl
@[simp] theorem State.recordAccepted_inputs (s : State) (c) : (s.recordAccepted c).inputs = s.inputs := rfl
@[simp] theorem State.recordAccepted_accepted (s : State) (c) : (s.recordAccepted c).accepted = s.accepted ++ [c] := rfl
@[simp] theorem State.recordAccepted_taken (s : State) (c) : (s.recordAccepted c).taken = s.taken := rfl
@[simp] theorem State.cand_recordAccepted (s : State) (c) (p : Cell) : (s.recordAccepted c).cand p = s.cand p := rfl

/-! ### `applyReset` -/

@[simp] theorem State.applyReset_width (s : State) : s.applyReset.width = s.width := rfl
@[simp] theorem State.applyReset_mem (s : State) : s.applyReset.mem = freshStore s.width := rfl
@[simp] theorem State.applyReset_rsp (s : State) : s.applyReset.rsp = none := rfl
@[simp] theorem State.applyReset_inputs (s : State) : s.applyReset.inputs = s.inputs := rfl
@[simp] theorem State.applyReset_accepted (s : State) : s.applyReset.accepted = [] := rfl
@[simp] theorem State.applyReset_taken (s : State) : s.applyReset.taken = [] := rfl

/-! ### `takeResponse` -/

theorem State.takeResponse_of_none {s : State} (h : s.rsp = none) : s.takeResponse = s := by
  simp only [State.takeResponse, h]

theorem State.takeResponse_of_some {s : State} {r : Rsp} (h : s.rsp = some r) :
    s.takeResponse = { s with rsp := none, taken := s.taken ++ [r] } := by
  simp only [State.takeResponse, h]

@[simp] theorem State.takeResponse_withRsp (s : State) (r : Rsp) :
    (s.withRsp r).takeResponse = { s with rsp := none, taken := s.taken ++ [r] } := rfl

@[simp] theorem State.takeResponse_rsp (s : State) : s.takeResponse.rsp = none := by
  cases h : s.rsp <;> simp [State.takeResponse, h]

@[simp] theorem State.takeResponse_width (s : State) : s.takeResponse.width = s.width := by
  cases h : s.rsp <;> simp [State.takeResponse, h]

@[simp] theorem State.takeResponse_inputs (s : State) : s.takeResponse.inputs = s.inputs := by
  cases h : s.rsp <;> simp [State.takeResponse, h]

@[simp] theorem State.takeResponse_accepted (s : State) : s.takeResponse.accepted = s.accepted := by
  cases h : s.rsp <;> simp [State.takeResponse, h]

@[simp] theorem State.takeResponse_taken (s : State) : s.takeResponse.taken = s.taken ++ s.rsp.toList := by
  cases h : s.rsp <;> simp [State.takeResponse, h]

@[simp] theorem State.cand_takeResponse (s : State) (p : Cell) : s.takeResponse.cand p = s.cand p := by
  rcases s with ⟨w, m, rsp, i, a, t⟩
  cases rsp <;> rfl

end Sys2Proof.Machine
end

