-- ==== Sys2Proof/Laws/Exec.lean ====
section
/-! SUPPORT. Everything the execution of a command can do, said once: it answers a next state in which only `M` and the
response port differ, the new `M` and the response depend on `M` alone, the tail padding stays intact, and a status other
than `OK` comes with `DATA = 0` and an unchanged `M` (R15, R33, R120). Callers cite these lemmas and do not unfold a
meaning. -/

namespace Sys2Proof.Machine

/-- What a command does with a store: from every state that holds it, the next state has the store `m'` and the response
of `st` and `d`, and nothing else changed. -/
def Answers {w : Width} (f : State → Result) (m m' : Store w) (st : Status) (d : BitVec 9) : Prop :=
  ∀ rsp inputs accepted taken,
    f ⟨w, m, rsp, inputs, accepted, taken⟩ = .next ⟨w, m', some (responseWord st d), inputs, accepted, taken⟩

/-- Everything a command can do with a store. -/
def Tame {w : Width} (f : State → Result) (m : Store w) : Prop :=
  ∃ (m' : Store w) (st : Status) (d : BitVec 9),
    Answers f m m' st d ∧ (Memory.wf m → Memory.wf m') ∧ (st ≠ .ok → d = 0#9 ∧ m' = m)

variable {w : Width} {m : Store w}

theorem tame_raise (st : Status) : Tame (raise st) m :=
  ⟨m, st, 0#9, fun _ _ _ _ => rfl, id, fun _ => ⟨rfl, rfl⟩⟩

/-- A range check raises its status or goes on. -/
theorem tame_checked {α : Type} (r : Except Status α) (k : α → State → Result) (h : ∀ a, r = .ok a → Tame (k a) m) :
    Tame (fun s => checked r s fun a => k a s) m := by
  cases r with
  | error e => exact tame_raise e
  | ok a => exact h a rfl

theorem tame_respond_mem (g : (s : State) → Store s.width) (hg : ∀ s : State, Memory.wf s.mem → Memory.wf (g s))
    (hd : ∀ rsp inputs accepted taken, g ⟨w, m, rsp, inputs, accepted, taken⟩ = g ⟨w, m, none, [], [], []⟩) (d : BitVec 9) :
    Tame (fun s => respond .ok d (s.withMem (g s))) m := by
  refine ⟨g ⟨w, m, none, [], [], []⟩, .ok, d, ?_, hg ⟨w, m, none, [], [], []⟩, fun h => absurd rfl h⟩
  intro rsp inputs accepted taken
  simp only [respond, State.withMem, State.withRsp, hd]

/-- What the meaning of each command can do. -/
theorem exec_tame (i : Instr) (m : Store w) : Tame (exec i) m := by
  cases i with
  | new => exact tame_respond_mem (fun s => freshStore s.width) (fun _ _ => wf_freshStore _) (fun _ _ _ _ => rfl) _
  | setc row col set =>
    exact tame_checked _ _ fun p _ => tame_checked _ _ fun v _ =>
      tame_respond_mem (fun s => writeField s.mem p v) (fun _ h => wf_writeField _ _ _ h) (fun _ _ _ _ => rfl) _
  | setd row col digit =>
    exact tame_checked _ _ fun p _ => tame_checked _ _ fun d _ =>
      tame_respond_mem (fun s => writeField s.mem p (fromDigit d)) (fun _ h => wf_writeField _ _ _ h) (fun _ _ _ _ => rfl) _
  | getc row col =>
    exact tame_checked _ _ fun p _ =>
      ⟨m, .ok, readField m p, fun _ _ _ _ => rfl, id, fun h => absurd rfl h⟩
  | getd row col =>
    refine tame_checked _ (fun p s => checked (toDigit (s.cand p)) s fun d => respond .ok (digitData d) s) fun p _ => ?_
    cases h : toDigit (readField m p) with
    | error e => exact ⟨m, e, 0#9, fun _ _ _ _ => by simp only [State.cand, h]; rfl, id, fun _ => ⟨rfl, rfl⟩⟩
    | ok d =>
      exact ⟨m, .ok, digitData d, fun _ _ _ _ => by simp only [State.cand, h]; rfl, id, fun h => absurd rfl h⟩
  | commit row col digit =>
    exact tame_checked _ _ fun p _ => tame_checked _ _ fun d _ =>
      tame_respond_mem (fun s => commitStore s.mem p d) (fun _ h => wf_commitStore _ _ _ h) (fun _ _ _ _ => rfl) _
  | clrbit index =>
    exact tame_checked _ _ fun g _ =>
      tame_respond_mem (fun s => clearIndex s.mem g) (fun _ h => wf_clearIndex _ _ h) (fun _ _ _ _ => rfl) _
  | setbit index =>
    exact tame_checked _ _ fun g _ =>
      tame_respond_mem (fun s => setIndex s.mem g) (fun _ h => wf_setIndex _ _ h) (fun _ _ _ _ => rfl) _

/-- What any command word can do. -/
theorem execute_tame (c : Cmd) (m : Store w) : Tame (execute c) m := by
  cases h : decodeCommand c with
  | error e =>
    have : execute c = raise e := funext fun s => by simp only [execute, h]
    exact this ▸ tame_raise e
  | ok i =>
    have : execute c = exec i := funext fun s => by simp only [execute, h]
    exact this ▸ exec_tame i m

/-! ### One lemma for each command: its answer on valid operands -/

theorem execSetc_ok {row col set} {p : Cell} {v : CandidateSet} (hr : row.toNat = p.row.val) (hc : col.toNat = p.col.val)
    (hv : set.toNat = v.toNat) (s : State) :
    execSetc row col set s = respond .ok 0#9 (s.withMem (writeField s.mem p v)) := by
  simp only [execSetc, cell_construct_ok hr hc, set_construct_ok hv, checked]

theorem execSetd_ok {row col digit} {p : Cell} {d : Digit} (hr : row.toNat = p.row.val) (hc : col.toNat = p.col.val)
    (hd : digit.toNat = d.val) (s : State) :
    execSetd row col digit s = respond .ok 0#9 (s.withMem (writeField s.mem p (fromDigit d))) := by
  simp only [execSetd, cell_construct_ok hr hc, digit_construct_ok hd, checked]

theorem execGetc_ok {row col} {p : Cell} (hr : row.toNat = p.row.val) (hc : col.toNat = p.col.val) (s : State) :
    execGetc row col s = respond .ok (s.cand p) s := by
  simp only [execGetc, cell_construct_ok hr hc, checked]

theorem execGetd_ok {row col} {p : Cell} (hr : row.toNat = p.row.val) (hc : col.toNat = p.col.val) (s : State) :
    execGetd row col s = checked (toDigit (s.cand p)) s fun d => respond .ok (digitData d) s := by
  simp only [execGetd, cell_construct_ok hr hc, checked]

theorem execCommit_ok {row col digit} {p : Cell} {d : Digit} (hr : row.toNat = p.row.val) (hc : col.toNat = p.col.val)
    (hd : digit.toNat = d.val) (s : State) :
    execCommit row col digit s = respond .ok 0#9 (s.withMem (commitStore s.mem p d)) := by
  simp only [execCommit, cell_construct_ok hr hc, digit_construct_ok hd, checked]

theorem execClrbit_ok {index} {g : BitIndex} (hg : index.toNat = g.val) (s : State) :
    execClrbit index s = respond .ok 0#9 (s.withMem (clearIndex s.mem g)) := by
  simp only [execClrbit, index_construct_ok hg, checked]

theorem execSetbit_ok {index} {g : BitIndex} (hg : index.toNat = g.val) (s : State) :
    execSetbit index s = respond .ok 0#9 (s.withMem (setIndex s.mem g)) := by
  simp only [execSetbit, index_construct_ok hg, checked]

/-! ### The answer on invalid operands -/

/-- A command whose operands fail a check of R81 answers the status of the first that fails. -/
theorem exec_operandError {i : Instr} {e : Status} (h : operandError i = some e) (s : State) : exec i s = raise e s := by
  cases i with
  | new => exact absurd h nofun
  | setc row col set =>
    rcases coordError_construct row col with ⟨hp, p, hc⟩ | ⟨hp, hc⟩ <;>
      rcases setError_construct set with ⟨hv, v, hs⟩ | ⟨hv, hs⟩ <;>
      simp_all [operandError, exec, execSetc, checked]
  | setd row col digit =>
    rcases coordError_construct row col with ⟨hp, p, hc⟩ | ⟨hp, hc⟩ <;>
      rcases digitError_construct digit with ⟨hd, d, hs⟩ | ⟨hd, hs⟩ <;>
      simp_all [operandError, exec, execSetd, checked]
  | getc row col =>
    rcases coordError_construct row col with ⟨hp, p, hc⟩ | ⟨hp, hc⟩ <;> simp_all [operandError, exec, execGetc, checked]
  | getd row col =>
    rcases coordError_construct row col with ⟨hp, p, hc⟩ | ⟨hp, hc⟩ <;> simp_all [operandError, exec, execGetd, checked]
  | commit row col digit =>
    rcases coordError_construct row col with ⟨hp, p, hc⟩ | ⟨hp, hc⟩ <;>
      rcases digitError_construct digit with ⟨hd, d, hs⟩ | ⟨hd, hs⟩ <;>
      simp_all [operandError, exec, execCommit, checked]
  | clrbit index =>
    rcases indexError_construct index with ⟨hg, g, hc⟩ | ⟨hg, hc⟩ <;> simp_all [operandError, exec, execClrbit, checked]
  | setbit index =>
    rcases indexError_construct index with ⟨hg, g, hc⟩ | ⟨hg, hc⟩ <;> simp_all [operandError, exec, execSetbit, checked]

end Sys2Proof.Machine
end

