-- ==== Sys2Proof/Laws/PerInstr.lean ====
section
/-! SUPPORT. Per instruction: the encoded word matches its row of the opcode map, `c & mask = match` (R76). -/

namespace Sys2Proof.Laws.EncodeMatch

/-- The word of the instruction, under its mask, is its pattern. -/
def Statement (i : Instr) : Prop := encode i &&& i.opcode.mask = i.opcode.pattern

theorem mask_low (op : Opcode) : ∀ k < 28, op.mask.getLsbD k = op.format.mustBeZero.getLsbD k := by
  cases op <;> decide

theorem mask_high (op : Opcode) : ∀ k < 32, 28 ≤ k → op.mask.getLsbD k = true := by cases op <;> decide

/-- A word matches when its operand bits are zero wherever its format asks for zero. -/
theorem of_operandBits {i : Instr} (op : Opcode) (ho : i.opcode = op)
    (h : ∀ k < 28, op.format.mustBeZero.getLsbD k = true → i.operandBits.getLsbD k = false) : Statement i := by
  subst ho
  apply BitVec.eq_of_getLsbD_eq
  intro k hk
  simp only [encode, Opcode.pattern, BitVec.getLsbD_and, BitVec.getLsbD_append]
  by_cases h28 : k < 28
  · rw [if_pos h28, if_pos h28, BitVec.getLsbD_zero, mask_low _ k h28]
    cases hb : i.opcode.format.mustBeZero.getLsbD k with
    | false => rw [Bool.and_false]
    | true => rw [h k h28 hb, Bool.false_and]
  · rw [if_neg h28, if_neg h28, mask_high _ k hk (Nat.le_of_not_lt h28), Bool.and_true]

theorem new : Statement .new := of_operandBits .new rfl fun _ _ _ => BitVec.getLsbD_zero

theorem setc (row col : BitVec 4) (set : BitVec 16) : Statement (.setc row col set) :=
  of_operandBits .setc rfl fun k hk hb => by
    interval_cases k <;> first
      | exact absurd hb (by decide)
      | (simp only [Instr.operandBits, BitVec.getLsbD_append]; simp)

theorem setd (row col digit : BitVec 4) : Statement (.setd row col digit) :=
  of_operandBits .setd rfl fun k hk hb => by
    interval_cases k <;> first
      | exact absurd hb (by decide)
      | (simp only [Instr.operandBits, BitVec.getLsbD_append]; simp)

theorem getc (row col : BitVec 4) : Statement (.getc row col) :=
  of_operandBits .getc rfl fun k hk hb => by
    interval_cases k <;> first
      | exact absurd hb (by decide)
      | (simp only [Instr.operandBits, BitVec.getLsbD_append]; simp)

theorem getd (row col : BitVec 4) : Statement (.getd row col) :=
  of_operandBits .getd rfl fun k hk hb => by
    interval_cases k <;> first
      | exact absurd hb (by decide)
      | (simp only [Instr.operandBits, BitVec.getLsbD_append]; simp)

theorem commit (row col digit : BitVec 4) : Statement (.commit row col digit) :=
  of_operandBits .commit rfl fun k hk hb => by
    interval_cases k <;> first
      | exact absurd hb (by decide)
      | (simp only [Instr.operandBits, BitVec.getLsbD_append]; simp)

theorem clrbit (index : BitVec 16) : Statement (.clrbit index) :=
  of_operandBits .clrbit rfl fun k hk hb => by
    interval_cases k <;> first
      | exact absurd hb (by decide)
      | (simp only [Instr.operandBits, BitVec.getLsbD_append]; simp)

theorem setbit (index : BitVec 16) : Statement (.setbit index) :=
  of_operandBits .setbit rfl fun k hk hb => by
    interval_cases k <;> first
      | exact absurd hb (by decide)
      | (simp only [Instr.operandBits, BitVec.getLsbD_append]; simp)

end Sys2Proof.Laws.EncodeMatch
end

