-- ==== Sys2Proof/Laws/Run.lean ====
section
/-! SUPPORT. Everything a step can do (R86, R129), and how lists of commands compose (R61, R141). -/

namespace Sys2Proof.Machine

/-- The cases of a step: the host drives nothing; it drives reset; the waiting response is taken; a word is accepted and
executed; or nothing is transferred. -/
theorem step_cases (s : State) :
    (s.inputs = [] ∧ step s = .next s) ∨
    ∃ inp rest, s.inputs = inp :: rest ∧
      ((inp.rst = true ∧ step s = .next s.dropInput.applyReset) ∨
       (inp.rst = false ∧ s.rsp.isSome ∧ inp.rspReady = true ∧ step s = .next s.dropInput.takeResponse) ∨
       (∃ c, inp.rst = false ∧ s.rsp = none ∧ inp.cmd = some c ∧ step s = accept c s.dropInput) ∨
       (inp.rst = false ∧ (s.rsp = none → inp.cmd = none) ∧ (s.rsp.isSome → inp.rspReady = false) ∧
          step s = .next s.dropInput)) := by
  cases hi : s.inputs with
  | nil => exact .inl ⟨rfl, by simp only [step, hi]⟩
  | cons inp rest =>
    refine .inr ⟨inp, rest, rfl, ?_⟩
    rcases inp with ⟨rst, cmd, ready⟩
    cases rst <;> cases hr : s.rsp <;> cases ready <;> cases cmd <;>
      simp [step, hi, State.portEvent, State.rspValid, State.cmdReady, hr]

/-- An accepted word: the new `M` and response depend on `M` alone, the word is counted, nothing else changes. -/
theorem accept_next (c : Cmd) (s : State) :
    ∃ (m : Store s.width) (st : Status) (d : BitVec 9),
      accept c s = .next { s with mem := m, rsp := some (responseWord st d), accepted := s.accepted ++ [c] } ∧
      Answers (execute c) s.mem m st d ∧ (Memory.wf s.mem → Memory.wf m) ∧ (st ≠ .ok → d = 0#9 ∧ m = s.mem) := by
  obtain ⟨m, st, d, ha, hm, he⟩ := execute_tame c s.mem
  exact ⟨m, st, d, ha _ _ _ _, ha, hm, he⟩

/-- Issuing a word: the response that was waiting is taken, then the word's own (R86, R87). -/
theorem issue_next (c : Cmd) (s : State) :
    ∃ (m : Store s.width) (st : Status) (d : BitVec 9),
      issue c s = .next { s with mem := m, rsp := none, accepted := s.accepted ++ [c],
                                 taken := s.taken ++ s.rsp.toList ++ [responseWord st d] } ∧
      Answers (execute c) s.mem m st d ∧ (Memory.wf s.mem → Memory.wf m) ∧ (st ≠ .ok → d = 0#9 ∧ m = s.mem) := by
  rcases s with ⟨w, m, rsp, i, a, t⟩
  cases rsp with
  | none =>
    obtain ⟨m', st, d, h, ha, hm, he⟩ := accept_next c ⟨w, m, none, i, a, t⟩
    exact ⟨m', st, d, by simp only [issue, State.takeResponse, h, Option.toList_none, List.append_nil], ha, hm, he⟩
  | some r =>
    obtain ⟨m', st, d, h, ha, hm, he⟩ := accept_next c ⟨w, m, none, i, a, t ++ [r]⟩
    exact ⟨m', st, d, by simp only [issue, State.takeResponse, h, Option.toList_some], ha, hm, he⟩

/-- A list of words issued in two parts (R61). -/
theorem issueAll_append (cs cs' : List Cmd) (s t : State) (h : issueAll cs s = .next t) :
    issueAll (cs ++ cs') s = issueAll cs' t := by
  induction cs generalizing s with
  | nil =>
    simp only [issueAll, Host.Outcome.next.injEq] at h
    subst h
    rfl
  | cons c cs ih =>
    obtain ⟨m, st, d, hi, -⟩ := issue_next c s
    simp only [issueAll, List.cons_append, hi] at h ⊢
    exact ih _ h

end Sys2Proof.Machine
end

