-- ==== Sys2Proof/Tests/Slice0.lean ====
section
/-! SUPPORT. Tests. The expected values are the spec's: R88 for words, 95_test_vectors.md V12 to V36 for results, R48 and
R53 for addresses. Then one witness for the hypotheses of each statement, clause by clause, at the ends of their ranges. -/

namespace Sys2Proof.Tests

open Sys2Proof Sys2Proof.Machine

/-! ### Helpers -/

/-- The response word a result leaves, as a number above `0xFFFF` when there is none. -/
def answer : Result → Nat
  | .next t => match t.rsp with
    | some r => r.toNat
    | none   => 0x10000
  | _ => 0x10000

/-- Word `i` of `M` after a result, as a number. -/
def wordAfter (r : Result) (i : Nat) : Nat :=
  match r with
  | .next t => if h : i < t.width.nwords then t.mem[i].toNat else 0
  | _ => 0

/-- Every word of `M` after a result is all ones. -/
def freshAfter : Result → Bool
  | .next t => t.mem.toList.all (fun x => x == BitVec.allOnes _)
  | _ => false

/-- `M` at `W = 64` with the given first two words, ones after them, and nothing at the ports. -/
def starting (m0 m1 : BitVec 64) : State :=
  ⟨.w64, ((freshStore .w64).set 0 m0 (by decide)).set 1 m1 (by decide), none, [], [], []⟩

/-- The machine after reset with the host's next rounds. -/
def driven (rounds : List HostInput) : State := { State.reset with inputs := rounds }

/-- The machine after reset with a response waiting, and the host's next rounds. -/
def waiting (r : Rsp) (rounds : List HostInput) : State := { State.reset with rsp := some r, inputs := rounds }

/-- A round in which the host drives nothing. -/
def idleRound : HostInput := { rst := false, cmd := none, rspReady := false }

/-! ### WellFormed refuses each ill-formed operand -/

theorem test_wellFormed_accepts_the_ends :
    (Instr.setc 8 8 0x1FF).WellFormed ∧ (Instr.setd 8 8 8).WellFormed ∧ (Instr.getc 8 8).WellFormed ∧
    (Instr.getd 8 8).WellFormed ∧ (Instr.commit 8 8 8).WellFormed ∧ (Instr.clrbit 728).WellFormed ∧
    (Instr.setbit 728).WellFormed ∧ Instr.new.WellFormed := by decide

theorem test_wellFormed_refuses_rows :
    ¬ (Instr.setc 9 0 0).WellFormed ∧ ¬ (Instr.setd 9 0 0).WellFormed ∧ ¬ (Instr.getc 9 0).WellFormed ∧
    ¬ (Instr.getd 15 0).WellFormed ∧ ¬ (Instr.commit 9 0 0).WellFormed := by decide

theorem test_wellFormed_refuses_columns :
    ¬ (Instr.setc 0 9 0).WellFormed ∧ ¬ (Instr.setd 0 9 0).WellFormed ∧ ¬ (Instr.getc 0 15).WellFormed ∧
    ¬ (Instr.getd 0 9).WellFormed ∧ ¬ (Instr.commit 0 9 0).WellFormed := by decide

theorem test_wellFormed_refuses_set : ¬ (Instr.setc 0 0 0x200).WellFormed := by decide

theorem test_wellFormed_refuses_digits : ¬ (Instr.setd 0 0 9).WellFormed ∧ ¬ (Instr.commit 0 0 9).WellFormed := by decide

theorem test_wellFormed_refuses_indices : ¬ (Instr.clrbit 729).WellFormed ∧ ¬ (Instr.setbit 729).WellFormed := by decide

/-! ### Words written out bit by bit from R67 to R76, one for each command (R88) -/

theorem test_decode_new : decodeTableWord 32 0b0001_0000_0000_0000_0000_0000_0000_0000 = some .new := by decide
theorem test_decode_setc :
    decodeTableWord 32 0b0010_0000_0111_0000_0000_0000_1010_1010 = some (.setc 0 7 0xAA) := by decide
theorem test_decode_setd :
    decodeTableWord 32 0b0011_0100_0100_1000_0000_0000_0000_0000 = some (.setd 4 4 8) := by decide
theorem test_decode_getc :
    decodeTableWord 32 0b0100_0000_0001_0000_0000_0000_0000_0000 = some (.getc 0 1) := by decide
theorem test_decode_getd :
    decodeTableWord 32 0b0101_0000_0001_0000_0000_0000_0000_0000 = some (.getd 0 1) := by decide
theorem test_decode_commit :
    decodeTableWord 32 0b0110_0000_0000_0100_0000_0000_0000_0000 = some (.commit 0 0 4) := by decide
theorem test_decode_clrbit :
    decodeTableWord 32 0b0111_0000_0000_0000_0000_0000_0000_1101 = some (.clrbit 13) := by decide
theorem test_decode_setbit :
    decodeTableWord 32 0b1000_0000_0000_0000_0000_0010_1101_1000 = some (.setbit 728) := by decide

/-- Reserved opcodes and must-be-zero bits (V27). -/
theorem test_decode_illegal :
    [0x00000000, 0xFFFFFFFF, 0x90000000, 0x10000001, 0x20010000, 0x30000001, 0x40010000, 0x61040001, 0x71000000].map
      (decodeTableWord 32) = List.replicate 9 none := by decide

/-! ### One step of each command (V12 to V26) -/

theorem test_new_fills : freshAfter (exec .new (starting 0 0x1234)) = true := by decide

/-- V12: a straddling write. -/
theorem test_setc_straddle :
    (wordAfter (exec (.setc 0 7 0xAA) State.reset) 0, wordAfter (exec (.setc 0 7 0xAA) State.reset) 1) =
      (0x7FFFFFFFFFFFFFFF, 0xFFFFFFFFFFFFFF55) := by decide

/-- V18: the `endBit = 0` case at `W = 8`. -/
theorem test_setc_w8 :
    (List.range 3).map (fun i => wordAfter (exec (.setc 0 7 0) (State.resetAt .w8)) (7 + i)) = [0x7F, 0x00, 0xFF] := by
  decide

/-- V15. -/
theorem test_setd : wordAfter (exec (.setd 4 4 8) State.reset) 5 = 0xFFFF00FFFFFFFFFF := by decide

/-- V27: the coordinate wins over the digit. -/
theorem test_setd_priority : answer (exec (.setd 9 0 9) State.reset) = 0x4000 := by decide

/-- P1: after V20's state. -/
theorem test_getc : answer (exec (.getc 0 1) (starting 0xFBFDFEFF7FBFDE10 0xFFFFFF7FBFDFEFF7)) = 0x01EF := by decide

/-- P2: a straddling read, `nLow = 1`, `nHigh = 8`. -/
theorem test_getc_straddle : answer (exec (.getc 0 7) (starting 0x7FFFFFFFFFFFFFFF 0xFFFFFFFFFFFFFF55)) = 0x00AA := by
  decide

/-- P1: a resolved cell. -/
theorem test_getd : answer (exec (.getd 0 0) (starting 0xFBFDFEFF7FBFDE10 0xFFFFFF7FBFDFEFF7)) = 0x0004 := by decide

/-- V19: the empty set and a set of nine are both ambiguous. -/
theorem test_getd_ambiguous :
    answer (exec (.getd 0 0) (starting 0xFFFFFFFFFFFFFE00 0)) = 0x1000 ∧ answer (exec (.getd 0 0) State.reset) = 0x1000 := by
  decide

/-- V20, all twelve words. -/
theorem test_commit :
    (List.range 12).map (wordAfter (exec (.commit 0 0 4) State.reset)) =
      [0xFBFDFEFF7FBFDE10, 0xFFFFFF7FBFDFEFF7, 0xFEFF7FBFFFFFFFFF, 0xFF7FFFFFFFFFFFFF, 0xFFFFFFFFFFFFFFFF,
       0xFFFFFFFFFFFFFEFF, 0xFFFFFFFFFDFFFFFF, 0xFFFFFBFFFFFFFFFF, 0xF7FFFFFFFFFFFFFF, 0xFFFFFFFFFFFFFFFF,
       0xFFFFFFFFFFFFEFFF, 0xFFFFFFFFFFFFFFFF] := by decide

/-- V24: the target is overwritten although its digit had been removed. -/
theorem test_commit_overwrites :
    wordAfter (exec (.commit 0 0 4) (starting 0xFFFFFFFFFFFFFE00 0xFFFFFFFFFFFFFFFF)) 0 = 0xFBFDFEFF7FBFDE10 := by decide

/-- V26: bits on either side of a word boundary. -/
theorem test_clrbit :
    wordAfter (exec (.clrbit 63) State.reset) 0 = 0x7FFFFFFFFFFFFFFF ∧
    wordAfter (exec (.clrbit 64) State.reset) 1 = 0xFFFFFFFFFFFFFFFE := by decide

/-- V27: the nearest refused index. -/
theorem test_clrbit_range : answer (exec (.clrbit 729) State.reset) = 0x5000 := by decide

/-- V25, and one bit set among zeros. -/
theorem test_setbit :
    wordAfter (exec (.setbit 13) (starting 0xFFFFFFFFFFFFDFFF 0)) 0 = 0xFFFFFFFFFFFFFFFF ∧
    wordAfter (exec (.setbit 64) (starting 0 0)) 1 = 1 := by decide

/-- V27: the nearest refused and the nearest accepted index. -/
theorem test_setbit_range :
    answer (exec (.setbit 729) State.reset) = 0x5000 ∧ answer (exec (.setbit 728) State.reset) = 0x0000 := by decide

/-- V27: an illegal word is answered and changes nothing. -/
theorem test_illegal_word : answer (execute 0x61040001 State.reset) = 0x6000 ∧ freshAfter (execute 0x61040001 State.reset) = true := by
  decide

/-! ### One round at the ports (R86, R129) -/

theorem test_fetchWord : answer (step (State.reset.withFetchWord 32 0x49000000)) = 0x4000 := by decide

theorem test_waiting_blocks : answer (step (waiting 0x01EF [offer 0x10000000])) = 0x01EF := by decide

theorem test_reset_withdraws : answer (step (waiting 0x01EF [resetRound])) = 0x10000 := by decide

/-! ### Witnesses: encoding and decoding -/

/-- A command with every operand at the end of its range. -/
theorem witness_DecodeOfEncode : (Instr.commit 8 8 8).WellFormed ∧ (Instr.setbit 728).WellFormed := by decide

theorem witness_EncodeOfDecode : decodeCommand 0x688F0000 = .ok (.commit 8 8 15) := by rfl

theorem witness_WordIsACommandExactlyWhenItsMaskMatches : ∀ i, decodeCommand 0x9FFFFFFF ≠ .ok i := by
  intro i
  exact nofun

/-- The reserved opcodes at the ends of their ranges, and each format with its lowest and highest must-be-zero bit. -/
theorem witness_IllegalWordsAnswerIllegalCommand :
    ∀ e ∈ [(0x0FFFFFFF#32, 0), (0x90000000, 9), (0xFFFFFFFF, 15), (0x10000001, 1), (0x18000000, 1), (0x20010000, 2),
        (0x20080000, 2), (0x30000001, 3), (0x60008000, 6), (0x40000001, 4), (0x50080000, 5), (0x70010000, 7),
        (0x88000000, 8)],
      (e.1.extractLsb' 28 4).toNat = e.2 ∧
      (e.2 = 0 ∨ 9 ≤ e.2 ∨ (e.2 = 1 ∧ e.1 &&& 0x0FFFFFFF#32 ≠ 0#32) ∨ (e.2 = 2 ∧ e.1 &&& 0x000F0000#32 ≠ 0#32) ∨
        ((e.2 = 3 ∨ e.2 = 6) ∧ e.1 &&& 0x0000FFFF#32 ≠ 0#32) ∨ ((e.2 = 4 ∨ e.2 = 5) ∧ e.1 &&& 0x000FFFFF#32 ≠ 0#32) ∨
        ((e.2 = 7 ∨ e.2 = 8) ∧ e.1 &&& 0x0FFF0000#32 ≠ 0#32)) := by decide

/-- The third clause, for a GETD of a fresh cell: it decodes, and its response has status 1. -/
theorem witness_DecodeRunsTheChecksInOrder :
    ∃ t, decode 0x50000000 = .ok (.getd 0 0) ∧ execute 0x50000000 State.reset = .next t ∧ t.rsp = some 0x1000#16 :=
  ⟨_, rfl, rfl, by decide⟩

/-! ### Witnesses: steps -/

theorem witness_StepRunsTheDecodedInstruction :
    (driven [offer 0x288001FF]).inputs = { rst := false, cmd := some 0x288001FF, rspReady := false } :: [] ∧
    (driven [offer 0x288001FF]).rsp = none ∧ decodeCommand 0x288001FF = .ok (.setc 8 8 0x1FF) := ⟨rfl, rfl, rfl⟩

theorem witness_StepAnswersAWordThatIsNoCommand :
    (driven [offer 0xFFFFFFFF]).inputs = { rst := false, cmd := some 0xFFFFFFFF, rspReady := false } :: [] ∧
    (driven [offer 0xFFFFFFFF]).rsp = none ∧ ∀ i, decodeCommand 0xFFFFFFFF ≠ .ok i := ⟨rfl, rfl, fun _ => nofun⟩

/-- A take while the host also offers a word, and a round with nothing to do. -/
theorem witness_TakeAndIdleRounds :
    (∃ inp, (waiting 0x4000 [inp]).inputs = inp :: [] ∧ inp.rst = false ∧ (waiting 0x4000 [inp]).rsp = some 0x4000#16 ∧
      inp.rspReady = true ∧ inp.cmd = some 0x10000000#32) ∧
    (driven [takeRound]).inputs = takeRound :: [] ∧ takeRound.rst = false ∧ (driven [takeRound]).rsp = none ∧
    takeRound.cmd = none :=
  ⟨⟨⟨false, some 0x10000000, true⟩, rfl, rfl, rfl, rfl, rfl⟩, rfl, rfl, rfl, rfl⟩

/-- Two rounds without a take, then one with it. -/
theorem witness_BackPressureHoldsUntilTheResponseIsTaken :
    (waiting 0 [offer 0x10000000, idleRound, takeRound]).rsp = some 0#16 ∧
    (∀ inp ∈ (waiting 0 [offer 0x10000000, idleRound, takeRound]).inputs.take 2, inp.rst = false ∧ inp.rspReady = false) ∧
    (waiting 0 [takeRound]).rsp = some 0#16 ∧ (waiting 0 [takeRound]).inputs = takeRound :: [] ∧ takeRound.rst = false ∧
    takeRound.rspReady = true := by decide

theorem witness_ResetRoundRestoresTheMachine :
    (waiting 0x1000 [resetRound]).inputs = resetRound :: [] ∧ resetRound.rst = true := by decide

/-- The first and the last word and padding bit at each width. -/
theorem witness_ResetStateValues :
    ∀ w ∈ [Width.w8, .w16, .w32, .w64], w.nwords - 1 < (State.resetAt w).width.nwords ∧ 729 < w.nwords * w.bits ∧
      729 ≤ w.nwords * w.bits - 1 ∧ w.nwords * w.bits - 1 < w.nwords * w.bits := by decide

/-! ### Witnesses: the commands -/

theorem witness_NewFillsTheStore :
    freshStore .w16 = Vector.replicate Width.w16.nwords (BitVec.allOnes Width.w16.bits) ∧
    ((0x18000000#32).extractLsb' 28 4).toNat = 1 ∧ (0x18000000#32).extractLsb' 0 28 ≠ 0#28 ∧
    (∃ t, exec .new (starting 0 0) = .next t) ∧ Instr.setbit 728 ≠ .new ∧ 729 < Width.w64.nwords * Width.w64.bits :=
  ⟨rfl, by decide, by decide, ⟨_, rfl⟩, by decide, by decide⟩

/-- The last cell with the empty set and with `ANY`; row 9, column 9 and column 15; set `0x200`; a must-be-zero bit. -/
theorem witness_SetcWritesTheSet :
    0x288001FF#32 &&& 0xF00F0000#32 = 0x20000000#32 ∧
    (∀ v ∈ [(0x000 : CandidateSet), 0x1FF], ∃ set : BitVec 16,
      (8#4).toNat = (⟨8, 8⟩ : Cell).row.val ∧ (8#4).toNat = (⟨8, 8⟩ : Cell).col.val ∧
      set.toNat = v.toNat) ∧
    ((8 < (9#4).toNat ∨ 8 < (0#4).toNat) ∧ (8 < (8#4).toNat ∨ 8 < (9#4).toNat) ∧ (8 < (0#4).toNat ∨ 8 < (15#4).toNat)) ∧
    ((8#4).toNat ≤ 8 ∧ (0#4).toNat ≤ 8 ∧ 0x1FF < (0x200#16).toNat) ∧
    ((0x20010001#32).extractLsb' 28 4).toNat = 2 ∧ (0x20010001#32).extractLsb' 16 4 ≠ 0#4 := by
  refine ⟨by decide, ?_, by decide, by decide, by decide, by decide⟩
  intro v _
  exact ⟨v.setWidth 16, by decide, by decide, by rw [BitVec.toNat_setWidth, Nat.mod_eq_of_lt]; have := v.isLt; omega⟩

/-- Digits 0 and 8 of the last cell; row 9, column 9; digit 9; a must-be-zero bit. -/
theorem witness_SetdWritesTheSingleton :
    0x34480000#32 &&& 0xF000FFFF#32 = 0x30000000#32 ∧
    ((8#4).toNat = (⟨8, 8⟩ : Cell).row.val ∧ (8#4).toNat = (⟨8, 8⟩ : Cell).col.val ∧
      (0#4).toNat = (0 : Digit).val ∧ (8#4).toNat = (8 : Digit).val) ∧
    ((8 < (9#4).toNat ∨ 8 < (0#4).toNat) ∧ (8 < (8#4).toNat ∨ 8 < (9#4).toNat)) ∧
    ((8#4).toNat ≤ 8 ∧ (0#4).toNat ≤ 8 ∧ 8 < (9#4).toNat) ∧
    ((0x30000001#32).extractLsb' 28 4).toNat = 3 ∧ (0x30000001#32).extractLsb' 0 16 ≠ 0#16 := by decide

theorem witness_GetcReadsTheSet :
    0x40100000#32 &&& 0xF00FFFFF#32 = 0x40000000#32 ∧
    ((0#4).toNat = (⟨0, 8⟩ : Cell).row.val ∧ (8#4).toNat = (⟨0, 8⟩ : Cell).col.val) ∧
    State.reset.mem = Vector.replicate State.reset.width.nwords (BitVec.allOnes State.reset.width.bits) ∧
    ((8 < (9#4).toNat ∨ 8 < (0#4).toNat) ∧ (8 < (8#4).toNat ∨ 8 < (9#4).toNat)) ∧
    ((0x40080000#32).extractLsb' 28 4).toNat = 4 ∧ (0x40080000#32).extractLsb' 0 20 ≠ 0#20 :=
  ⟨by decide, by decide, rfl, by decide, by decide, by decide⟩

/-- Cell (0,0) holding `{0}`, `{8}`, no digit, two digits, and nine. -/
theorem witness_GetdReadsTheDigit :
    0x50000000#32 &&& 0xF00FFFFF#32 = 0x50000000#32 ∧
    ((0#4).toNat = (⟨0, 0⟩ : Cell).row.val ∧ (0#4).toNat = (⟨0, 0⟩ : Cell).col.val) ∧
    (starting 0x001 0).cand ⟨0, 0⟩ = 1#9 <<< (0 : Digit).val ∧ (starting 0x100 0).cand ⟨0, 0⟩ = 1#9 <<< (8 : Digit).val ∧
    (∀ d : Digit, (starting 0x000 0).cand ⟨0, 0⟩ ≠ 1#9 <<< d.val) ∧
    (∀ d : Digit, (starting 0x003 0).cand ⟨0, 0⟩ ≠ 1#9 <<< d.val) ∧
    (∀ d : Digit, (starting 0x1FF 0).cand ⟨0, 0⟩ ≠ 1#9 <<< d.val) ∧
    ((8 < (9#4).toNat ∨ 8 < (0#4).toNat) ∧ (8 < (8#4).toNat ∨ 8 < (9#4).toNat)) ∧
    ((0x50000001#32).extractLsb' 28 4).toNat = 5 ∧ (0x50000001#32).extractLsb' 0 20 ≠ 0#20 := by decide

/-- A peer in the row, in the column and in the block only, and a cell that is none; the errors as for SETD. -/
theorem witness_CommitEliminatesAndWrites :
    0x60040000#32 &&& 0xF000FFFF#32 = 0x60000000#32 ∧
    ((8#4).toNat = (⟨8, 8⟩ : Cell).row.val ∧ (8#4).toNat = (⟨8, 8⟩ : Cell).col.val ∧
      (8#4).toNat = (8 : Digit).val) ∧
    (∀ q ∈ [(⟨8, 0⟩ : Cell), ⟨0, 8⟩, ⟨6, 6⟩], q ≠ ⟨8, 8⟩ ∧
      (q.row = (⟨8, 8⟩ : Cell).row ∨ q.col = (⟨8, 8⟩ : Cell).col ∨ q.block = (⟨8, 8⟩ : Cell).block)) ∧
    ((⟨5, 5⟩ : Cell).row ≠ (⟨8, 8⟩ : Cell).row ∧ (⟨5, 5⟩ : Cell).col ≠ (⟨8, 8⟩ : Cell).col ∧
      (⟨5, 5⟩ : Cell).block ≠ (⟨8, 8⟩ : Cell).block) ∧
    729 < State.reset.width.nwords * State.reset.width.bits ∧
    ((8 < (9#4).toNat ∨ 8 < (0#4).toNat) ∧ (8 < (8#4).toNat ∨ 8 < (9#4).toNat)) ∧
    ((8#4).toNat ≤ 8 ∧ (0#4).toNat ≤ 8 ∧ 8 < (9#4).toNat) ∧
    ((0x61040001#32).extractLsb' 28 4).toNat = 6 ∧ (0x61040001#32).extractLsb' 0 16 ≠ 0#16 := by decide

/-- Indices 0, 728 and 729, and the cell and digit of 728. -/
theorem witness_ClrbitClearsOneBit :
    0x700002D8#32 &&& 0xFFFF0000#32 = 0x70000000#32 ∧
    (0#16).toNat ≤ 728 ∧ (728#16).toNat ≤ 728 ∧
    (⟨8, 8⟩ : Cell).index = (728#16).toNat / 9 ∧ (8 : Digit).val = (728#16).toNat % 9 ∧
    728 < (729#16).toNat ∧
    ((0x70010000#32).extractLsb' 28 4).toNat = 7 ∧ (0x70010000#32).extractLsb' 16 12 ≠ 0#12 := by decide

theorem witness_SetbitSetsOneBit :
    0x800002D8#32 &&& 0xFFFF0000#32 = 0x80000000#32 ∧
    (0#16).toNat ≤ 728 ∧ (728#16).toNat ≤ 728 ∧
    (⟨8, 8⟩ : Cell).index = (728#16).toNat / 9 ∧ (8 : Digit).val = (728#16).toNat % 9 ∧
    728 < (0xFFFF#16).toNat ∧
    ((0x88000000#32).extractLsb' 28 4).toNat = 8 ∧ (0x88000000#32).extractLsb' 16 12 ≠ 0#12 := by decide

/-! ### Witnesses: values, addresses, primitives -/

theorem witness_ToDigitNeedsExactlyOneBit : count 0x000 ≠ 1 ∧ count 0x003 ≠ 1 ∧ count 0x1FF ≠ 1 := by decide

theorem witness_PeersAreTheTwentyOtherCells :
    (⟨0, 2⟩ : Cell) ∈ blockGroup ⟨0, 0⟩ ∧ (⟨0, 2⟩ : Cell) ∈ blockGroup ⟨2, 1⟩ := by decide

/-- One bit at the last address; nine bits at the last address; a straddling field. -/
theorem witness_AccessSplitBounds :
    ((1 = 1 ∨ 1 = 9) ∧ 728 + 1 ≤ 729) ∧ ((9 = 1 ∨ 9 = 9) ∧ 720 + 9 ≤ 729) ∧
    (63 + 9 ≤ 729 ∧ 0 < nHigh .w64 63 9 ∧ 0 < nHigh .w8 63 9) := by decide

theorem witness_StraddlingCells : ∃ p : Cell, p.row.val = 8 ∧ p.col.val = 8 := ⟨⟨8, 8⟩, rfl, rfl⟩

/-- A straddling field with `endBit ≠ 0`; `endBit = 0` at `W = 64` (cell 63) and at `W = 8` (cell 7). -/
theorem witness_SplitAgainstTheSourcesFormula :
    splitOffset .w64 (252 + 9) = (4, 5) ∧ straddles .w64 252 9 = true ∧
    splitOffset .w64 (567 + 9) = (9, 0) ∧ straddles .w64 567 9 = false ∧
    splitOffset .w8 (63 + 9) = (9, 0) ∧ straddles .w8 63 9 = true := by decide

/-- At `W = 8` the field at 63 is in words 7 and 8: a bit and a word below, above, and the two it shares. -/
theorem witness_WriteDisturbsNoOtherBits :
    InRange 63 9 ∧ startWord .w8 63 = 7 ∧ 0 < nHigh .w8 63 9 ∧ 7 + 1 < Width.w8.nwords ∧
    (∀ x ∈ [62, 72], ¬ (63 ≤ x ∧ x < 63 + 9)) ∧
    (∀ i ∈ [6, 9], i < Width.w8.nwords ∧ i ≠ startWord .w8 63 ∧ ¬ (i = startWord .w8 63 + 1 ∧ 0 < nHigh .w8 63 9)) ∧
    (⟨0, 6⟩ : Cell) ≠ ⟨0, 7⟩ ∧ 729 < Width.w8.nwords * Width.w8.bits := by decide

/-- The last single bit, and a field with its bits in falling order. -/
theorem witness_SingleBitAccessThroughPrimitives :
    InRange 728 1 ∧ 728 < Width.w64.nwords * Width.w64.bits ∧ InRange 720 9 ∧ nine.reverse.Perm nine :=
  ⟨by decide, by decide, by decide, List.reverse_perm _⟩

/-- The last cell, and a range on either side of a written one. -/
theorem witness_WriteThenReadRoundTrip :
    (8#4).toNat = (⟨8, 8⟩ : Cell).row.val ∧ InRange 63 9 ∧ (InRange 54 9 ∧ 54 + 9 ≤ 63) ∧
    (InRange 72 1 ∧ 63 + 9 ≤ 72) := by decide

/-! ### Witnesses: the propagator -/

/-- The peers backwards, with the target among them. -/
theorem witness_CommitOrderIsImmaterial :
    (∀ q, q ≠ (⟨0, 0⟩ : Cell) → (q ∈ (peers ⟨0, 0⟩).reverse ++ [⟨0, 0⟩] ↔ q ∈ peers ⟨0, 0⟩)) ∧
    (⟨0, 0⟩ : Cell) ∈ (peers ⟨0, 0⟩).reverse ++ [⟨0, 0⟩] := by
  refine ⟨fun q hq => ?_, by decide⟩
  rw [List.mem_append, List.mem_reverse, List.mem_singleton]
  exact or_iff_left hq

/-- A peer that holds the digit and one that does not. -/
theorem witness_ClearIsAGuardedXor :
    isPeer ⟨1, 1⟩ ⟨0, 0⟩ = true ∧ contains (readField (starting 0x010 0).mem ⟨0, 0⟩) 4 = true ∧
    contains (readField (starting 0x1EF 0).mem ⟨0, 0⟩) 4 = false := by decide

/-- Two commits in both orders; a peer; another digit; a cell that is none; peers with the same digit; one cell. -/
theorem witness_CommitProperties :
    [((⟨0, 0⟩ : Cell), (4 : Digit)), (⟨0, 1⟩, 3)].Perm [(⟨0, 1⟩, 3), (⟨0, 0⟩, 4)] ∧
    [((⟨0, 0⟩ : Cell), (4 : Digit)), (⟨0, 1⟩, 3)].Pairwise
      (fun a b => a.1 ≠ b.1 ∧ ¬ (isPeer a.1 b.1 = true ∧ a.2 = b.2)) ∧
    isPeer ⟨0, 0⟩ ⟨2, 2⟩ = true ∧ (3 : Digit) ≠ 4 ∧ ((⟨3, 3⟩ : Cell) ≠ ⟨0, 0⟩ ∧ isPeer ⟨0, 0⟩ ⟨3, 3⟩ = false) ∧
    (isPeer ⟨0, 0⟩ ⟨0, 8⟩ = true ∧ (4 : Digit) = 4) :=
  ⟨.swap _ _ _, by decide, by decide, by decide, by decide, by decide⟩

theorem witness_CommitsOnlyRemoveFromOtherCells :
    ∀ pd ∈ [((⟨0, 0⟩ : Cell), (4 : Digit)), (⟨8, 8⟩, 0)], pd.1 ≠ ⟨0, 1⟩ := by decide

/-! ### Witnesses: invariants and the whole machine -/

/-- The state after reset with a word offered: all three invariants hold in it, and it steps. -/
theorem witness_StepKeepsPadding :
    Memory.wf (driven [offer 0x10000000]).mem ∧ ∃ t, step (driven [offer 0x10000000]) = .next t :=
  ⟨wf_freshStore _, _, rfl⟩

theorem witness_StepKeepsHistoryFaithful :
    (driven [offer 0x10000000]).Faithful ∧ ∃ t, step (driven [offer 0x10000000]) = .next t := ⟨rfl, _, rfl⟩

/-- With `0x1000` waiting and about to be taken. -/
theorem witness_StepKeepsResponsesWellFormed :
    (waiting 0x1000 [takeRound]).ResponsesWellFormed ∧ ∃ t, step (waiting 0x1000 [takeRound]) = .next t := by
  refine ⟨fun r hr => ?_, _, rfl⟩
  obtain rfl : r = 0x1000#16 := by simpa [waiting, State.reset, State.resetAt] using hr
  exact ⟨by decide, by decide, by decide⟩

/-- A row out of range, answered the same in two states; a GETD; an error. -/
theorem witness_ErrorsArePrecise :
    (((0x69090000#32).extractLsb' 28 4).toNat ≠ 5 ∧
      ∃ t t', execute 0x69090000 State.reset = .next t ∧ execute 0x69090000 (starting 0 0) = .next t' ∧
        t.rsp = some 0x4000#16 ∧ t'.rsp = some 0x4000#16) ∧
    (((0x50000000#32).extractLsb' 28 4).toNat = 5 ∧ ∃ t, execute 0x50000000 State.reset = .next t) ∧
    statusField 0x4000#16 ≠ 0#4 :=
  ⟨⟨by decide, _, _, rfl, rfl, by decide, by decide⟩, ⟨by decide, _, rfl⟩, by decide⟩

theorem witness_StatusesOfEachCommand : ∀ op ∈ [0, 9, 15], op ∈ [0, 9, 10, 11, 12, 13, 14, 15] := by decide

theorem witness_CommandsAreIdempotent : ∃ row col, Instr.getd 8 8 = .getc row col ∨ Instr.getd 8 8 = .getd row col :=
  ⟨8, 8, .inr rfl⟩

/-- The widths 8 and 64 after reset. -/
theorem witness_WordWidthDoesNotShow : SameCells (State.resetAt .w8) (State.resetAt .w64) :=
  ⟨fun p => (readField_freshStore (w := .w8) p).trans (readField_freshStore (w := .w64) p).symm, rfl, rfl, rfl, rfl⟩

/-! ### Witnesses: SOLVE -/

/-- V36's row 0, `55x......`, on a grid with '.' elsewhere. -/
def gridV36 : Grid := fun p =>
  if p.row = 0 then (if p.col = 0 ∨ p.col = 1 then '5' else if p.col = 2 then 'x' else '.') else '.'

/-- Row 0 `12345678.`: its last cell is left one digit. -/
def gridEight : Grid := fun p => if p.row = 0 ∧ p.col ≠ 8 then Char.ofNat (0x31 + p.col.val) else '.'

/-- V32, the solved grid `(3*(r%3) + r/3 + c) % 9 + 1`. -/
def gridV32 : Grid := fun p => Char.ofNat (0x31 + (3 * (p.row.val % 3) + p.row.val / 3 + p.col.val) % 9)

theorem witness_SolveCommandSequence : ((⟨0, 0⟩ : Cell), (4 : Digit)) ∈ prefilled gridV36 := by decide +kernel

/-- A pre-filled cell that a later peer repeats, one that none does, a cell with one digit left, one with several. -/
theorem witness_SolveOutputForEveryGrid :
    (0x31 ≤ (gridV36 ⟨0, 0⟩).toNat ∧ (gridV36 ⟨0, 0⟩).toNat ≤ 0x39 ∧
      isPeer ⟨0, 0⟩ ⟨0, 1⟩ = true ∧ Cell.index ⟨0, 0⟩ < Cell.index ⟨0, 1⟩ ∧ gridV36 ⟨0, 1⟩ = gridV36 ⟨0, 0⟩) ∧
    (0x31 ≤ (gridV36 ⟨0, 1⟩).toNat ∧ (gridV36 ⟨0, 1⟩).toNat ≤ 0x39 ∧
      ∀ a b : Fin 9, ¬ (isPeer ⟨0, 1⟩ ⟨a, b⟩ = true ∧ Cell.index ⟨0, 1⟩ < Cell.index ⟨a, b⟩ ∧
        gridV36 ⟨a, b⟩ = gridV36 ⟨0, 1⟩)) ∧
    (¬ (0x31 ≤ (gridEight ⟨0, 8⟩).toNat ∧ (gridEight ⟨0, 8⟩).toNat ≤ 0x39) ∧
      ∀ e : Digit, (∃ a b : Fin 9, isPeer ⟨0, 8⟩ ⟨a, b⟩ = true ∧ (gridEight ⟨a, b⟩).toNat = 0x31 + e.val) ↔ e ≠ 8) ∧
    (¬ (0x31 ≤ (gridV36 ⟨0, 2⟩).toNat ∧ (gridV36 ⟨0, 2⟩).toNat ≤ 0x39) ∧
      ¬ ∃ d : Digit, ∀ e : Digit,
        (∃ a b : Fin 9, isPeer ⟨0, 2⟩ ⟨a, b⟩ = true ∧ (gridV36 ⟨a, b⟩).toNat = 0x31 + e.val) ↔ e ≠ d) := by
  decide +kernel

theorem witness_SolvedGridIsReturnedUnchanged :
    (∀ a b : Fin 9, 0x31 ≤ (gridV32 ⟨a, b⟩).toNat ∧ (gridV32 ⟨a, b⟩).toNat ≤ 0x39) ∧
    ∀ a b c d : Fin 9, isPeer ⟨a, b⟩ ⟨c, d⟩ = true → gridV32 ⟨a, b⟩ ≠ gridV32 ⟨c, d⟩ := by decide +kernel

end Sys2Proof.Tests
end

section
/-! PROOFS of the statements on scope (00_scope.md): the step is total (R11), an accepted command runs as its execution
(R86), and the word width shows neither in the candidate sets nor at the ports (R7). -/

namespace Sys2Proof.Machine

/-! ### The step is total (R11, R141) -/

theorem execute_next (c : Cmd) (s : State) : ∃ t, execute c s = .next t := by
  obtain ⟨m, st, d, hanswers, -⟩ := execute_tame c s.mem
  exact ⟨_, hanswers s.rsp s.inputs s.accepted s.taken⟩

theorem step_next (s : State) : ∃ t, step s = .next t := by
  obtain ⟨-, h⟩ | ⟨inp, rest, -, ⟨-, h⟩ | ⟨-, -, -, h⟩ | ⟨c, -, -, -, h⟩ | ⟨-, -, -, h⟩⟩ := step_cases s
  case inr.inr.inr.inl =>
    rw [h]
    exact execute_next c _
  all_goals exact ⟨_, h⟩

theorem run_next (k : Nat) (s : State) : ∃ t, Host.Core.run Sys2Proof.core k s = .next t := by
  induction k generalizing s with
  | zero => exact ⟨s, rfl⟩
  | succ k ih =>
    obtain ⟨t, ht⟩ := step_next s
    have hcore : Sys2Proof.core.step s = .next t := ht
    simp only [Host.Core.run, hcore]
    exact ih t

/-- Settles O45, from what any word can do (`execute_tame`), the cases of a step, and induction on the length of the
run. -/
theorem everyStepAnswersANextState : Obligations.EveryStepAnswersANextState :=
  ⟨execute_next, step_next, run_next⟩

/-! ### The step on an accepted command (R86, R87) -/

/-- A word offered outside reset on an empty response port is accepted, whether or not the host is ready (R86). -/
theorem portEvent_of_offer {s : State} {c : Cmd} {ready : Bool} (hrsp : s.rsp = none) :
    s.portEvent { rst := false, cmd := some c, rspReady := ready } = .accept c := by
  simp [State.portEvent, State.rspValid, State.cmdReady, hrsp]

theorem step_of_portEvent_accept {s : State} {inp : HostInput} {rest : List HostInput} {c : Cmd}
    (hinputs : s.inputs = inp :: rest) (hevent : s.portEvent inp = .accept c) : step s = accept c s.dropInput := by
  simp only [step, hinputs, hevent]

theorem execute_of_decodeCommand {c : Cmd} {i : Instr} (h : decodeCommand c = .ok i) (s : State) :
    execute c s = exec i s := by
  simp only [execute, h]

/-- Settles O7: the round is an acceptance, and executing the word is executing what it decodes to. -/
theorem stepRunsTheDecodedInstruction : Obligations.StepRunsTheDecodedInstruction := by
  intro s c i ready rest hinputs hrsp hdecode
  calc step s = accept c s.dropInput := step_of_portEvent_accept hinputs (portEvent_of_offer hrsp)
    _ = exec i (s.dropInput.recordAccepted c) := execute_of_decodeCommand hdecode _
    _ = exec i { s with inputs := rest, accepted := s.accepted ++ [c] } := by
      simp only [State.dropInput, State.recordAccepted, hinputs, List.tail_cons]

/-! ### Single-bit writes at a raw index, in cell terms (R103) -/

theorem readField_clearIndex_cell_digit {w : Width} (m : Store w) (g : BitIndex) (p : Cell) :
    readField (clearIndex m g) p = if p = g.cell then without (readField m p) g.digit else readField m p := by
  simpa only [bitOf_cell_digit] using readField_clearIndex m g.cell p g.digit

theorem readField_setIndex_cell_digit {w : Width} (m : Store w) (g : BitIndex) (p : Cell) :
    readField (setIndex m g) p = if p = g.cell then union (readField m p) (fromDigit g.digit) else readField m p := by
  simpa only [bitOf_cell_digit] using readField_setIndex m g.cell p g.digit

/-! ### Machines that hold the same candidate sets: state updates (R7) -/

section
variable {s s' : State}

theorem SameCells.cand_eq (h : SameCells s s') (p : Cell) : s.cand p = s'.cand p := h.1 p

theorem SameCells.readField_eq (h : SameCells s s') (p : Cell) : readField s.mem p = readField s'.mem p := h.1 p

theorem SameCells.rsp_eq (h : SameCells s s') : s.rsp = s'.rsp := h.2.1

theorem SameCells.inputs_eq (h : SameCells s s') : s.inputs = s'.inputs := h.2.2.1

theorem SameCells.withMem (h : SameCells s s') {m : Store s.width} {m' : Store s'.width}
    (hm : ∀ p, readField m p = readField m' p) : SameCells (s.withMem m) (s'.withMem m') := by
  obtain ⟨-, hports⟩ := h
  exact ⟨hm, hports⟩

theorem SameCells.withRsp (h : SameCells s s') (r : Rsp) : SameCells (s.withRsp r) (s'.withRsp r) := by
  obtain ⟨hcand, -, hrest⟩ := h
  exact ⟨hcand, rfl, hrest⟩

theorem SameCells.dropInput (h : SameCells s s') : SameCells s.dropInput s'.dropInput := by
  obtain ⟨hcand, hrsp, hinputs, hhistory⟩ := h
  exact ⟨hcand, hrsp, congrArg List.tail hinputs, hhistory⟩

theorem SameCells.recordAccepted (h : SameCells s s') (c : Cmd) :
    SameCells (s.recordAccepted c) (s'.recordAccepted c) := by
  obtain ⟨hcand, hrsp, hinputs, haccepted, htaken⟩ := h
  exact ⟨hcand, hrsp, hinputs, congrArg (· ++ [c]) haccepted, htaken⟩

theorem SameCells.takeResponse (h : SameCells s s') : SameCells s.takeResponse s'.takeResponse := by
  obtain ⟨hcand, hrsp, hinputs, haccepted, htaken⟩ := h
  exact ⟨by simpa using hcand, by simp, by simpa using hinputs, by simpa using haccepted, by simp [hrsp, htaken]⟩

theorem readField_freshStore_eq (w w' : Width) (p : Cell) :
    readField (freshStore w) p = readField (freshStore w') p :=
  (readField_freshStore p).trans (readField_freshStore p).symm

theorem sameCells_resetAt (w w' : Width) : SameCells (State.resetAt w) (State.resetAt w') :=
  ⟨readField_freshStore_eq w w', rfl, rfl, rfl, rfl⟩

theorem SameCells.applyReset (h : SameCells s s') : SameCells s.applyReset s'.applyReset :=
  ⟨readField_freshStore_eq s.width s'.width, rfl, h.inputs_eq, rfl, rfl⟩

/-- What happens at the ports in a round depends only on what is at the ports (R86). -/
theorem SameCells.portEvent_eq (h : SameCells s s') (inp : HostInput) : s.portEvent inp = s'.portEvent inp := by
  unfold State.portEvent State.rspValid State.cmdReady
  rw [h.rsp_eq]

/-! ### Machines that hold the same candidate sets: results (R7) -/

/-- Both machines answer a next state, and the two next states show the same. -/
def SameResult (r r' : Result) : Prop := ∃ t t', r = .next t ∧ r' = .next t' ∧ SameCells t t'

theorem SameCells.sameResult (h : SameCells s s') : SameResult (.next s) (.next s') := ⟨s, s', rfl, rfl, h⟩

theorem SameCells.respond (h : SameCells s s') (st : Status) (d : BitVec 9) :
    SameResult (respond st d s) (respond st d s') :=
  (h.withRsp _).sameResult

theorem SameCells.raise (h : SameCells s s') (st : Status) : SameResult (raise st s) (raise st s') := h.respond st 0#9

/-- The same check on both machines raises on both, or goes on with the same operand. -/
theorem SameCells.checked (h : SameCells s s') {α : Type} (r : Except Status α) {k k' : α → Result}
    (hk : ∀ a, SameResult (k a) (k' a)) : SameResult (checked r s k) (checked r s' k') := by
  cases r with
  | error e => exact h.raise e
  | ok a => exact hk a

/-- A command that writes `M` shows nothing of the width when the sets it leaves do not. -/
theorem SameCells.respond_withMem (h : SameCells s s') {m : Store s.width} {m' : Store s'.width}
    (hm : ∀ p, readField m p = readField m' p) :
    SameResult (Machine.respond .ok 0#9 (s.withMem m)) (Machine.respond .ok 0#9 (s'.withMem m')) :=
  (h.withMem hm).respond _ _

/-- No command shows the width: each reads and writes `M` as 81 candidate sets (R89 to R102). -/
theorem SameCells.exec (h : SameCells s s') (i : Instr) : SameResult (exec i s) (exec i s') := by
  have hfield := h.readField_eq
  cases i with
  | new => exact h.respond_withMem (readField_freshStore_eq _ _)
  | setc row col set =>
    exact h.checked _ fun p => h.checked _ fun v => h.respond_withMem fun q => by
      simp only [readField_writeField, hfield]
  | setd row col digit =>
    exact h.checked _ fun p => h.checked _ fun d => h.respond_withMem fun q => by
      simp only [readField_writeField, hfield]
  | getc row col =>
    refine h.checked _ fun p => ?_
    rw [h.cand_eq p]
    exact h.respond _ _
  | getd row col =>
    refine h.checked _ fun p => ?_
    rw [h.cand_eq p]
    exact h.checked _ fun d => h.respond _ _
  | commit row col digit =>
    exact h.checked _ fun p => h.checked _ fun d => h.respond_withMem fun q => by
      simp only [readField_commitStore, hfield]
  | clrbit index =>
    exact h.checked _ fun g => h.respond_withMem fun q => by
      simp only [readField_clearIndex_cell_digit, hfield]
  | setbit index =>
    exact h.checked _ fun g => h.respond_withMem fun q => by
      simp only [readField_setIndex_cell_digit, hfield]

theorem SameCells.execute (h : SameCells s s') (c : Cmd) : SameResult (execute c s) (execute c s') := by
  cases hdecode : decodeCommand c with
  | error e =>
    simp only [Machine.execute, hdecode]
    exact h.raise e
  | ok i =>
    simp only [execute_of_decodeCommand hdecode]
    exact h.exec i

theorem SameCells.step (h : SameCells s s') : SameResult (step s) (step s') := by
  cases hinputs : s.inputs with
  | nil =>
    have hinputs' : s'.inputs = [] := h.inputs_eq ▸ hinputs
    simp only [Machine.step, hinputs, hinputs']
    exact h.sameResult
  | cons inp rest =>
    have hinputs' : s'.inputs = inp :: rest := h.inputs_eq ▸ hinputs
    simp only [Machine.step, hinputs, hinputs', h.portEvent_eq inp]
    cases s'.portEvent inp with
    | reset => exact h.dropInput.applyReset.sameResult
    | take => exact h.dropInput.takeResponse.sameResult
    | accept c => exact (h.dropInput.recordAccepted c).execute c
    | nothing => exact h.dropInput.sameResult

end

/-- Settles O46: each event of a round keeps the relation, and reset establishes it at every width. -/
theorem wordWidthDoesNotShow : Obligations.WordWidthDoesNotShow :=
  ⟨fun _ _ h => h.step, sameCells_resetAt⟩

end Sys2Proof.Machine
end

section
/-! PROOFS of the statements on the state (10_state.md): the value types and their conversions (R26, R29), the peers of a
cell (R30), the tail padding (R33), what COMMITs leave in other cells (R35), reset (R43) and the fetch convention (R40). On
the way: a command's word decodes to the command (R76). -/

namespace Sys2Proof.Machine

/-! ### The tail padding (R33, R139) -/

theorem wf_takeResponse {s : State} (h : Memory.wf s.mem) : Memory.wf s.takeResponse.mem := by
  rcases s with ⟨w, m, rsp, inputs, accepted, taken⟩
  cases rsp <;> exact h

theorem wf_of_accept {c : Cmd} {s t : State} (hwf : Memory.wf s.mem) (h : accept c s = .next t) : Memory.wf t.mem := by
  obtain ⟨m, st, d, haccept, -, hm, -⟩ := accept_next c s
  cases haccept.symm.trans h
  exact hm hwf

/-- Settles O36: each event of a round keeps the padding; an accepted word does so by what any word can do. -/
theorem stepKeepsPadding : Obligations.StepKeepsPadding := by
  intro s t hwf hstep
  obtain ⟨-, h⟩ | ⟨inp, rest, -, ⟨-, h⟩ | ⟨-, -, -, h⟩ | ⟨c, -, -, -, h⟩ | ⟨-, -, -, h⟩⟩ := step_cases s
  case inr.inr.inr.inl => exact wf_of_accept (s := s.dropInput) hwf (h.symm.trans hstep)
  all_goals cases h.symm.trans hstep
  case inl => exact hwf
  case inr.inl => exact wf_freshStore _
  case inr.inr.inl => exact wf_takeResponse (s := s.dropInput) hwf
  case inr.inr.inr.inr => exact hwf

/-- Settles O37: reset leaves the store that NEW leaves. -/
theorem resetHasPadding : Obligations.ResetHasPadding := fun w => wf_freshStore w

/-! ### Reset and the fetch convention (R40, R43) -/

/-- Settles O12: after reset `M` is the fresh store, and the ports are empty. -/
theorem resetStateValues : Obligations.ResetStateValues := by
  refine ⟨rfl, fun w => ⟨fun i h => ?_, readField_freshStore, fun x hx _ => bit_freshStore w x hx, rfl, rfl, rfl⟩⟩
  exact Vector.getElem_replicate h

/-- Settles O39: nothing was accepted, and nothing was taken or waits. -/
theorem resetHistoryIsFaithful : Obligations.ResetHistoryIsFaithful := fun _ => ⟨rfl, rfl⟩

/-- Settles O41: no response is waiting or taken. -/
theorem resetResponsesAreWellFormed : Obligations.ResetResponsesAreWellFormed := by
  intro w r hr
  have hnone : (State.resetAt w).taken ++ (State.resetAt w).rsp.toList = [] := rfl
  rw [hnone] at hr
  exact absurd hr List.not_mem_nil

/-- Settles O13: the offered word meets an empty response port, so the round is its acceptance. -/
theorem fetchWordRunsNext : Obligations.FetchWordRunsNext := by
  intro s nbits n
  exact step_of_portEvent_accept (s := s.withFetchWord nbits n) rfl (portEvent_of_offer rfl)

/-! ### `toDigit` (R26) -/

theorem nine_eq_finRange : nine = List.finRange 9 := by decide

/-- The trailing-bit position is the least member of the set (R13). -/
theorem ctz?_eq_some_iff (s : CandidateSet) (d : Digit) :
    ctz? s = some d ↔ contains s d = true ∧ ∀ e < d, contains s e = false := by
  simp only [ctz?, nine_eq_finRange, List.find?_eq_some_iff_getElem, List.getElem_finRange, Bool.not_eq_true']
  constructor
  · rintro ⟨hd, i, hi, rfl, hleast⟩
    exact ⟨hd, fun e he => hleast e.val he⟩
  · rintro ⟨hd, hleast⟩
    exact ⟨hd, d.val, by simp, rfl, fun j hj => hleast ⟨j, hj.trans d.isLt⟩ hj⟩

theorem toDigit_eq_ok_iff (s : CandidateSet) (d : Digit) : toDigit s = .ok d ↔ count s = 1 ∧ ctz? s = some d := by
  by_cases hcount : count s = 1
  · cases hctz : ctz? s <;> simp [toDigit, hcount, hctz]
  · simp [toDigit, hcount]

theorem toDigit_of_count_ne_one {s : CandidateSet} (h : count s ≠ 1) : toDigit s = .error .ambiguousCandidates :=
  if_neg h

/-- Settles O22: the digit is the trailing-bit position, which is the least member. -/
theorem toDigitNeedsExactlyOneBit : Obligations.ToDigitNeedsExactlyOneBit := fun s =>
  ⟨fun d => by rw [toDigit_eq_ok_iff, ctz?_eq_some_iff], toDigit_of_count_ne_one⟩

/-! ### Coordinates (R29) -/

theorem offsetIn_toGridPoint (b : Block) (o : BlockPoint) : (toGridPoint b o).offsetIn = o := by
  rcases b with ⟨⟨b, _⟩, ⟨b', _⟩⟩
  rcases o with ⟨⟨o, _⟩, ⟨o', _⟩⟩
  simp only [toGridPoint, Cell.offsetIn, BlockPoint.mk.injEq, Fin.ext_iff]
  omega

theorem index_ofIndex (i : Fin 81) : (Cell.ofIndex i).index = i.val := Nat.div_add_mod' _ _

theorem flat_ofFlat (k : Fin 9) : (BlockPoint.ofFlat k).flat = k := Fin.ext (Nat.div_add_mod' _ _)

/-- Settles O23: the quotients and remainders are those of the definitions, the inverses are the lemmas above. -/
theorem coordinateConversions : Obligations.CoordinateConversions :=
  ⟨fun p => ⟨rfl, Nat.le_of_lt_succ p.index_lt, rfl, rfl, rfl, rfl, toGridPoint_block_offsetIn p⟩,
    fun i => ⟨rfl, rfl, index_ofIndex i⟩,
    fun b o => ⟨rfl, rfl, block_toGridPoint b o, offsetIn_toGridPoint b o⟩,
    fun k => ⟨rfl, rfl, flat_ofFlat k⟩⟩

/-! ### Groups and peers (R30) -/

theorem block_eq_iff (p q : Cell) :
    q.block = p.block ↔ q.row.val / 3 = p.row.val / 3 ∧ q.col.val / 3 = p.col.val / 3 := by
  simp only [Cell.block, Block.mk.injEq, Fin.mk.injEq]
  exact and_comm

theorem mem_peers_iff (p q : Cell) :
    q ∈ peers p ↔ (q ∈ rowGroup p ∨ q ∈ colGroup p ∨ q ∈ blockGroup p) ∧ q ≠ p := by
  rw [mem_peers, mem_rowGroup, mem_colGroup, mem_blockGroup, isPeer, decide_eq_true_eq, and_comm]

theorem mem_peers_symm (p q : Cell) : q ∈ peers p ↔ p ∈ peers q := by
  rw [mem_peers, mem_peers, isPeer_symm]

theorem nodup_nine : nine.Nodup := nine_eq_finRange ▸ List.nodup_finRange 9

theorem nodup_rowGroup (p : Cell) : (rowGroup p).Nodup := nodup_nine.map fun _ _ h => congrArg Cell.col h

theorem nodup_colGroup (p : Cell) : (colGroup p).Nodup := nodup_nine.map fun _ _ h => congrArg Cell.row h

/-- The block's cells are listed along the nine offsets in a block, which are distinct (R29). -/
theorem nodup_blockGroup (p : Cell) : (blockGroup p).Nodup := by
  have hoffsets : (three.flatMap fun i => three.map fun j => (⟨j, i⟩ : BlockPoint)).Nodup := by decide
  have hinj : Function.Injective (toGridPoint p.block) :=
    Function.LeftInverse.injective (g := Cell.offsetIn) (offsetIn_toGridPoint p.block)
  exact hoffsets.map hinj

/-- The peers of a cell in its row. -/
abbrev rowPeers (p : Cell) : List Cell := (rowGroup p).filter (· ≠ p)

/-- The peers of a cell in its column. -/
abbrev colPeers (p : Cell) : List Cell := (colGroup p).filter (· ≠ p)

/-- The peers of a cell that are in neither its row nor its column. -/
abbrev blockOnlyPeers (p : Cell) : List Cell := (blockGroup p).filter fun q => q.row ≠ p.row ∧ q.col ≠ p.col

theorem peers_eq (p : Cell) : peers p = rowPeers p ++ colPeers p ++ blockOnlyPeers p := rfl

theorem row_eq_and_col_ne_of_mem_rowPeers {p q : Cell} (h : q ∈ rowPeers p) : q.row = p.row ∧ q.col ≠ p.col := by
  simp only [List.mem_filter, mem_rowGroup, decide_eq_true_eq] at h
  obtain ⟨hrow, hne⟩ := h
  exact ⟨hrow, fun hcol => hne (by cases p; cases q; simp_all)⟩

theorem col_eq_and_row_ne_of_mem_colPeers {p q : Cell} (h : q ∈ colPeers p) : q.col = p.col ∧ q.row ≠ p.row := by
  simp only [List.mem_filter, mem_colGroup, decide_eq_true_eq] at h
  obtain ⟨hcol, hne⟩ := h
  exact ⟨hcol, fun hrow => hne (by cases p; cases q; simp_all)⟩

theorem row_ne_and_col_ne_of_mem_blockOnlyPeers {p q : Cell} (h : q ∈ blockOnlyPeers p) :
    q.row ≠ p.row ∧ q.col ≠ p.col := by
  simpa using List.of_mem_filter h

theorem length_filter_ne {l : List Cell} {p : Cell} (hl : l.Nodup) (hp : p ∈ l) :
    (l.filter (· ≠ p)).length = l.length - 1 := by
  rw [← List.length_erase_of_mem hp, hl.erase_eq_filter]
  exact congrArg List.length (List.filter_congr fun q _ => by by_cases h : q = p <;> simp [h])

theorem length_rowPeers (p : Cell) : (rowPeers p).length = 8 :=
  length_filter_ne (nodup_rowGroup p) ((mem_rowGroup p p).mpr rfl)

theorem length_colPeers (p : Cell) : (colPeers p).length = 8 :=
  length_filter_ne (nodup_colGroup p) ((mem_colGroup p p).mpr rfl)

theorem length_blockOnlyPeers (p : Cell) : (blockOnlyPeers p).length = 4 := by
  rcases p with ⟨r, c⟩
  revert r c
  decide

theorem length_peers (p : Cell) : (peers p).length = 20 := by
  simp only [peers_eq, List.length_append, length_rowPeers, length_colPeers, length_blockOnlyPeers]

theorem nodup_peers (p : Cell) : (peers p).Nodup := by
  have hrowCol : (rowPeers p).Disjoint (colPeers p) := fun q hr hc =>
    (col_eq_and_row_ne_of_mem_colPeers hc).2 (row_eq_and_col_ne_of_mem_rowPeers hr).1
  have hrowBlock : (rowPeers p).Disjoint (blockOnlyPeers p) := fun q hr hb =>
    (row_ne_and_col_ne_of_mem_blockOnlyPeers hb).1 (row_eq_and_col_ne_of_mem_rowPeers hr).1
  have hcolBlock : (colPeers p).Disjoint (blockOnlyPeers p) := fun q hc hb =>
    (row_ne_and_col_ne_of_mem_blockOnlyPeers hb).2 (col_eq_and_row_ne_of_mem_colPeers hc).1
  exact (((nodup_rowGroup p).filter _).append ((nodup_colGroup p).filter _) hrowCol).append
    ((nodup_blockGroup p).filter _) (List.disjoint_append_left.mpr ⟨hrowBlock, hcolBlock⟩)

theorem filter_row_peers (p : Cell) : ((peers p).filter fun q => q.row = p.row) = rowPeers p := by
  have hrow : ((rowPeers p).filter fun q => q.row = p.row) = rowPeers p :=
    List.filter_eq_self.mpr fun q h => by simp [row_eq_and_col_ne_of_mem_rowPeers h]
  have hcol : ((colPeers p).filter fun q => q.row = p.row) = [] :=
    List.filter_eq_nil_iff.mpr fun q h => by simp [col_eq_and_row_ne_of_mem_colPeers h]
  have hblock : ((blockOnlyPeers p).filter fun q => q.row = p.row) = [] :=
    List.filter_eq_nil_iff.mpr fun q h => by simp [row_ne_and_col_ne_of_mem_blockOnlyPeers h]
  simp only [peers_eq, List.filter_append, hrow, hcol, hblock, List.append_nil]

theorem filter_col_peers (p : Cell) : ((peers p).filter fun q => q.col = p.col) = colPeers p := by
  have hrow : ((rowPeers p).filter fun q => q.col = p.col) = [] :=
    List.filter_eq_nil_iff.mpr fun q h => by simp [row_eq_and_col_ne_of_mem_rowPeers h]
  have hcol : ((colPeers p).filter fun q => q.col = p.col) = colPeers p :=
    List.filter_eq_self.mpr fun q h => by simp [col_eq_and_row_ne_of_mem_colPeers h]
  have hblock : ((blockOnlyPeers p).filter fun q => q.col = p.col) = [] :=
    List.filter_eq_nil_iff.mpr fun q h => by simp [row_ne_and_col_ne_of_mem_blockOnlyPeers h]
  simp only [peers_eq, List.filter_append, hrow, hcol, hblock, List.append_nil, List.nil_append]

theorem filter_neither_peers (p : Cell) :
    ((peers p).filter fun q => q.row ≠ p.row ∧ q.col ≠ p.col) = blockOnlyPeers p := by
  have hrow : ((rowPeers p).filter fun q => q.row ≠ p.row ∧ q.col ≠ p.col) = [] :=
    List.filter_eq_nil_iff.mpr fun q h => by simp [row_eq_and_col_ne_of_mem_rowPeers h]
  have hcol : ((colPeers p).filter fun q => q.row ≠ p.row ∧ q.col ≠ p.col) = [] :=
    List.filter_eq_nil_iff.mpr fun q h => by simp [col_eq_and_row_ne_of_mem_colPeers h]
  have hblock : ((blockOnlyPeers p).filter fun q => q.row ≠ p.row ∧ q.col ≠ p.col) = blockOnlyPeers p :=
    List.filter_eq_self.mpr fun q h => by simp [row_ne_and_col_ne_of_mem_blockOnlyPeers h]
  simp only [peers_eq, List.filter_append, hrow, hcol, hblock, List.nil_append]

/-- Two blocks that share a cell are one block. -/
theorem mem_blockGroup_iff_of_common {p q x : Cell} (hp : x ∈ blockGroup p) (hq : x ∈ blockGroup q) (y : Cell) :
    y ∈ blockGroup p ↔ y ∈ blockGroup q := by
  rw [mem_blockGroup] at hp hq ⊢
  rw [mem_blockGroup, ← hp, ← hq]

/-- Settles O24: membership, then counts along the three disjoint parts of the listed peers. -/
theorem peersAreTheTwentyOtherCells : Obligations.PeersAreTheTwentyOtherCells := by
  refine ⟨fun p q => ?_, fun p => ?_, fun p q x hp hq => mem_blockGroup_iff_of_common hp hq, by decide⟩
  · exact ⟨mem_rowGroup p q, mem_colGroup p q, (mem_blockGroup p q).trans (block_eq_iff p q), mem_peers_iff p q,
      mem_peers_symm p q⟩
  · rw [filter_row_peers, filter_col_peers, filter_neither_peers]
    exact ⟨rfl, nodup_rowGroup p, rfl, nodup_colGroup p, rfl, nodup_blockGroup p, length_peers p, nodup_peers p,
      length_rowPeers p, length_colPeers p, length_blockOnlyPeers p⟩

/-! ### The word of a command decodes to it (R76, R81) -/

theorem opField_encode (i : Instr) : opField (encode i) = i.opcode.code := BitVec.extractLsb'_append_eq_left

theorem ofCode_code (op : Opcode) : Opcode.ofCode op.code = some op := by cases op <;> rfl

/-- Each command's word matches its row of the opcode map (R76). -/
theorem encodeMatch (i : Instr) : Laws.EncodeMatch.Statement i := by
  cases i with
  | new => exact Laws.EncodeMatch.new
  | setc row col set => exact Laws.EncodeMatch.setc row col set
  | setd row col digit => exact Laws.EncodeMatch.setd row col digit
  | getc row col => exact Laws.EncodeMatch.getc row col
  | getd row col => exact Laws.EncodeMatch.getd row col
  | commit row col digit => exact Laws.EncodeMatch.commit row col digit
  | clrbit index => exact Laws.EncodeMatch.clrbit index
  | setbit index => exact Laws.EncodeMatch.setbit index

/-- The fields of a command's word are the command's operands, bit by bit (R67 to R73). -/
theorem instr_encode (i : Instr) : i.opcode.instr (encode i) = i := by
  cases i with
  | new => rfl
  | _ =>
    simp only [Instr.opcode, Opcode.instr]
    congr 1
    all_goals
      refine BitVec.eq_of_getLsbD_eq fun k hk => ?_
      simp only [rowField, colField, digField, immField, encode, Instr.operandBits, BitVec.getLsbD_extractLsb',
        BitVec.getLsbD_append, hk, decide_true, Bool.true_and]
      interval_cases k <;> simp

/-- A word that matches its row of the opcode map decodes to the fields of the word (R76, R81). -/
theorem decodeCommand_encode (i : Instr) : decodeCommand (encode i) = .ok i := by
  simp only [decodeCommand, opField_encode, ofCode_code, instr_encode]
  exact if_pos (encodeMatch i)

/-! ### Lists of COMMITs (R35, R94) -/

theorem toNat_field4 (x : Fin 9) : (field4 x).toNat = x.val := by revert x; decide

/-- An accepted COMMIT, in cell terms (R94). -/
theorem accept_commitWord (p : Cell) (d : Digit) (s : State) :
    ∃ t, accept (commitWord p d) s = .next t ∧
      ∀ q, t.cand q = if q = p then fromDigit d else if isPeer p q then without (s.cand q) d else s.cand q := by
  refine ⟨((s.recordAccepted (commitWord p d)).withMem (commitStore s.mem p d)).withRsp (responseWord .ok 0#9), ?_,
    fun q => readField_commitStore s.mem p q d⟩
  rw [accept, commitWord, execute_of_decodeCommand (decodeCommand_encode _)]
  exact execCommit_ok (toNat_field4 _) (toNat_field4 _) (toNat_field4 _) (s.recordAccepted _)

/-- A COMMIT to another cell removes its digit when it is to a peer, and nothing else (R35). -/
theorem issue_commitWord_other {p q : Cell} (hq : p ≠ q) (d : Digit) (s : State) :
    ∃ t, issue (commitWord p d) s = .next t ∧
      ∀ e, contains (t.cand q) e = true ↔ contains (s.cand q) e = true ∧ (isPeer p q = true → d ≠ e) := by
  obtain ⟨t, haccept, hcand⟩ := accept_commitWord p d s.takeResponse
  refine ⟨t.takeResponse, by simp only [issue, haccept], fun e => ?_⟩
  rw [State.cand_takeResponse, hcand, if_neg hq.symm, State.cand_takeResponse]
  cases isPeer p q <;> simp [contains_without, eq_comm (a := e) (b := d)]

/-- Settles O35, by induction on the list of COMMITs from any state. -/
theorem commitsOnlyRemoveFromOtherCells : Obligations.CommitsOnlyRemoveFromOtherCells := by
  intro s ps q hq
  induction ps generalizing s with
  | nil => exact ⟨s, rfl, fun e => by simp⟩
  | cons pd ps ih =>
    rw [List.forall_mem_cons] at hq
    obtain ⟨hqHead, hqTail⟩ := hq
    obtain ⟨t, hissue, hhead⟩ := issue_commitWord_other hqHead pd.2 s
    obtain ⟨u, hissueAll, htail⟩ := ih t hqTail
    refine ⟨u, by simpa only [List.map_cons, issueAll, hissue] using hissueAll, fun e => ?_⟩
    rw [htail, hhead, List.forall_mem_cons, and_assoc]

end Sys2Proof.Machine
end

section
/-! PROOFS of the statements on memory (20_memory.md): the port history (R61), the split of an access over one or two words
(R46 to R48, R52, R53), what a write leaves alone and what reads back (R54 to R56), and that commands repeat (R66). -/

namespace Sys2Proof.Machine

variable {w : Width}

/-! ### The port history (R61, R87, R141) -/

theorem settled_dropInput (s : State) : s.dropInput.settled = s.settled := by
  rcases s with ⟨w, m, rsp, inputs, accepted, taken⟩
  cases rsp <;> rfl

theorem settled_takeResponse (s : State) : s.takeResponse.settled = s.settled := by
  rcases s with ⟨w, m, rsp, inputs, accepted, taken⟩
  cases rsp <;> rfl

theorem faithful_dropInput {s : State} (h : s.Faithful) : s.dropInput.Faithful := by
  rw [State.Faithful, settled_dropInput]
  exact h

theorem faithful_takeResponse {s : State} (h : s.Faithful) : s.takeResponse.Faithful := by
  rw [State.Faithful, settled_takeResponse, State.takeResponse_accepted, State.takeResponse_width]
  exact h

theorem faithful_applyReset (s : State) : s.applyReset.Faithful := rfl

theorem width_accepted_of_accept {c : Cmd} {s t : State} (h : accept c s = .next t) :
    t.width = s.width ∧ t.accepted = s.accepted ++ [c] := by
  obtain ⟨m, st, d, haccept, -⟩ := accept_next c s
  cases haccept.symm.trans h
  exact ⟨rfl, rfl⟩

/-- Accepting a word and settling is settling and issuing the word: its answer depends on `M` alone. -/
theorem issue_settled {c : Cmd} {s t : State} (hrsp : s.rsp = none) (h : accept c s = .next t) :
    issue c s.settled = .next t.settled := by
  obtain ⟨m, st, d, haccept, hanswers, -⟩ := accept_next c s
  cases haccept.symm.trans h
  rcases s with ⟨w, mem, rsp, inputs, accepted, taken⟩
  cases hrsp
  have hsettled : accept c ⟨w, mem, none, [], accepted, taken⟩ = _ := hanswers none [] (accepted ++ [c]) taken
  simp only [State.settled, State.takeResponse, issue, hsettled]

theorem faithful_of_accept {c : Cmd} {s t : State} (hs : s.Faithful) (hrsp : s.rsp = none)
    (h : accept c s = .next t) : t.Faithful := by
  obtain ⟨hwidth, haccepted⟩ := width_accepted_of_accept h
  rw [State.Faithful, hwidth, haccepted, issueAll_append _ _ _ _ hs]
  simp only [issueAll, issue_settled hrsp h]

/-- Settles O38: dropping an input and taking the response leave the settled state, a reset empties the history, and an
accepted word is the next word issued. -/
theorem stepKeepsHistoryFaithful : Obligations.StepKeepsHistoryFaithful := by
  intro s t hs hstep
  have hdrop := faithful_dropInput hs
  obtain ⟨-, h⟩ | ⟨inp, rest, -, ⟨-, h⟩ | ⟨-, -, -, h⟩ | ⟨c, -, hrsp, -, h⟩ | ⟨-, -, -, h⟩⟩ := step_cases s
  case inr.inr.inr.inl => exact faithful_of_accept hdrop hrsp (h.symm.trans hstep)
  all_goals cases h.symm.trans hstep
  case inl => exact hs
  case inr.inl => exact faithful_applyReset _
  case inr.inr.inl => exact faithful_takeResponse hdrop
  case inr.inr.inr.inr => exact hdrop

/-! ### The split of an access (R46, R47, R52, R53) -/

/-- Where the bit `n` bits further on lies, from the quotient and remainder of its distance to the start of the word. -/
theorem splitOffset_add {g n q r : Nat} (hr : r < w.bits) (h : startBit w g + n = q * w.bits + r) :
    splitOffset w (g + n) = (startWord w g + q, r) := by
  have hg := startWord_startBit w g
  have hgn : g + n = (startWord w g + q) * w.bits + r := by rw [Nat.add_mul]; omega
  rw [hgn]
  exact Prod.ext (startWord_of w hr) (startBit_of w hr)

theorem nHigh_pos_iff (w : Width) (g n : Nat) : 0 < nHigh w g n ↔ w.bits < startBit w g + n := by
  have hbit := startBit_lt w g
  simp only [nHigh, nLow]
  omega

theorem straddles_iff (w : Width) (g n : Nat) : straddles w g n = true ↔ w.bits < startBit w g + n :=
  decide_eq_true_iff.trans (nHigh_pos_iff w g n)

/-- Settles O25: the bounds follow from `startBit < W` and `9 ≤ W + 1`, and the words exist because the access is in
range. -/
theorem accessSplitBounds : Obligations.AccessSplitBounds := by
  intro w g n hn hg
  have hrange : InRange g n := ⟨by omega, hg⟩
  have hbit := startBit_lt w g
  have hbits := nine_le_bits_add_one w
  have hlow : nLow w g n = min n (w.bits - startBit w g) := rfl
  have hhigh : nHigh w g n = n - nLow w g n := rfl
  have hsecond : 0 < nHigh w g n → (startWord w g + 1) * w.bits ≤ g + n - 1 := by
    have hsplit := startWord_startBit w g
    rw [Nat.succ_mul]
    omega
  have hnine : w.bits < startBit w g + n ↔ n = 9 ∧ w.bits < g % w.bits + 9 := by
    change _ ↔ n = 9 ∧ w.bits < startBit w g + 9
    omega
  exact ⟨rfl, rfl, rfl, rfl, by omega, by omega, by omega, by omega, hrange.startWord_lt,
    fun h => ⟨hrange.nextWord_lt h.ne', hsecond h⟩, decide_eq_true_iff, (straddles_iff w g n).trans hnine⟩

theorem sixteen_le_bits (h : w ≠ .w8) : 16 ≤ w.bits := by
  cases w with
  | w8 => exact absurd rfl h
  | _ => decide

/-- Settles O27: the end of the field is one word further on, or two when the field fills the second word, which only
`W = 8` has. -/
theorem splitAgainstTheSourcesFormula : Obligations.SplitAgainstTheSourcesFormula := by
  intro w g endWord endBit _ hend
  have hbit := startBit_lt w g
  have hbits := nine_le_bits_add_one w
  have hlow : nLow w g 9 = min 9 (w.bits - startBit w g) := rfl
  have hhigh : nHigh w g 9 = 9 - nLow w g 9 := rfl
  have hsplit : ∀ q r, r < w.bits → startBit w g + 9 = q * w.bits + r → endWord = startWord w g + q ∧ endBit = r :=
    fun q r hr h => Prod.mk.inj (hend.symm.trans (splitOffset_add hr h))
  refine ⟨fun hs hne => ?_, fun hw hs => ?_, fun hw hstart => ?_, fun hw hstart => ?_⟩
  · rw [straddles_iff] at hs
    by_cases hfull : startBit w g + 9 = 2 * w.bits + 0
    · exact absurd (hsplit 2 0 (bits_pos w) hfull).2 hne
    · obtain ⟨hword, hendBit⟩ := hsplit 1 (startBit w g + 9 - w.bits) (by omega) (by omega)
      omega
  · rw [straddles_iff] at hs
    have hwide := sixteen_le_bits hw
    obtain ⟨-, hendBit⟩ := hsplit 1 (startBit w g + 9 - w.bits) (by omega) (by omega)
    omega
  · have hwide := sixteen_le_bits hw
    obtain ⟨hword, hendBit⟩ := hsplit 1 0 (bits_pos w) (by omega)
    have hnot : ¬ straddles w g 9 = true := by rw [straddles_iff]; omega
    exact ⟨Bool.eq_false_iff.mpr hnot, hword, hendBit, by omega⟩
  · have hbyte : w.bits = 8 := hw ▸ rfl
    obtain ⟨hword, hendBit⟩ := hsplit 2 0 (bits_pos w) (by omega)
    exact ⟨by omega, by omega, hword, hendBit⟩

/-! ### The straddling cells (R48) -/

/-- Settles O26: the lists by evaluation, and the table by evaluation once a cell's offset is that of its row and
column. -/
theorem straddlingCells : Obligations.StraddlingCells := by
  refine ⟨fun _ => rfl, by decide, by decide, by decide, by decide,
    fun e he p hrow hcol => ?_⟩
  simp only [Cell.offset, Cell.index, hrow, hcol]
  clear hrow hcol p
  revert e
  decide

/-! ### What a write leaves alone (R54) -/

theorem wordBit_lt {i b : Nat} (hi : i < w.nwords) (hb : b < w.bits) : i * w.bits + b < w.nwords * w.bits :=
  calc i * w.bits + b < (i + 1) * w.bits := by rw [Nat.succ_mul]; omega
    _ ≤ w.nwords * w.bits := Nat.mul_le_mul_right _ hi

/-- Bit `b` of word `i` is global bit `i * W + b` (R44). -/
theorem getLsbD_word (m : Store w) {i b : Nat} (hi : i < w.nwords) (hb : b < w.bits) :
    m[i].getLsbD b = bit m (i * w.bits + b) (wordBit_lt hi hb) := by
  simp only [bit, startWord_of w hb, startBit_of w hb]

/-- The bits of an access are those under the low mask of its first word and the lowest `nHigh` of the next (R46). -/
theorem word_of_accessed_bit {g n i b : Nat} (hn : n ≤ 9) (hb : b < w.bits)
    (hin : g ≤ i * w.bits + b ∧ i * w.bits + b < g + n) :
    (i = startWord w g ∧ startBit w g ≤ b ∧ b < startBit w g + nLow w g n) ∨
      (i = startWord w g + 1 ∧ b < nHigh w g n) := by
  have hbit := startBit_lt w g
  have hbits := nine_le_bits_add_one w
  have hlow : nLow w g n = min n (w.bits - startBit w g) := rfl
  have hhigh : nHigh w g n = n - nLow w g n := rfl
  obtain ⟨hge, hlt⟩ := hin
  obtain ⟨k, hk⟩ := Nat.exists_eq_add_of_le hge
  have hsplit : ∀ q r, r < w.bits → startBit w g + k = q * w.bits + r → i = startWord w g + q ∧ b = r := by
    intro q r hr h
    have hadd := splitOffset_add hr h
    rw [← hk] at hadd
    obtain ⟨hword, hbit⟩ := Prod.mk.inj hadd
    exact ⟨(startWord_of w hb).symm.trans hword, (startBit_of w hb).symm.trans hbit⟩
  by_cases hfirst : startBit w g + k < w.bits
  · obtain ⟨hi, rfl⟩ := hsplit 0 (startBit w g + k) hfirst (by omega)
    exact .inl ⟨hi, by omega, by omega⟩
  · obtain ⟨hi, rfl⟩ := hsplit 1 (startBit w g + k - w.bits) (by omega) (by omega)
    exact .inr ⟨hi, by omega⟩

theorem getLsbD_memWrite_word (m : Store w) {g n : Nat} (v : BitVec n) (h : InRange g n) (hn : n ≤ 9) {i b : Nat}
    (hi : i < w.nwords) (hb : b < w.bits) (hout : ¬ (g ≤ i * w.bits + b ∧ i * w.bits + b < g + n)) :
    (memWrite m g n v h)[i].getLsbD b = m[i].getLsbD b := by
  rw [getLsbD_word _ hi hb, getLsbD_word _ hi hb, bit_memWrite _ _ _ _ _ hn, if_neg hout]

theorem and_eq_and_of_getLsbD {N : Nat} {x y mask : BitVec N}
    (h : ∀ b < N, mask.getLsbD b = true → x.getLsbD b = y.getLsbD b) : x &&& mask = y &&& mask := by
  refine BitVec.eq_of_getLsbD_eq fun b hb => ?_
  rw [BitVec.getLsbD_and, BitVec.getLsbD_and]
  cases hmask : mask.getLsbD b with
  | false => rw [Bool.and_false, Bool.and_false]
  | true => rw [h b hb hmask]

theorem getLsbD_not_lowMask {g k b : Nat} (hb : b < w.bits) (h : (~~~(ones w.bits k <<< startBit w g)).getLsbD b = true) :
    ¬ (startBit w g ≤ b ∧ b < startBit w g + k) := by
  rintro ⟨hge, hlt⟩
  have hk : b - startBit w g < k := by omega
  have hset : (ones w.bits k <<< startBit w g).getLsbD b = true := by
    simp only [BitVec.getLsbD_shiftLeft, getLsbD_ones, hb, hk, Nat.not_lt.mpr hge, Nat.lt_of_le_of_lt (Nat.sub_le _ _) hb,
      decide_true, decide_false, Bool.not_false, Bool.and_self]
  simp only [BitVec.getLsbD_not, hset, Bool.not_true, Bool.and_false, Bool.false_eq_true] at h

theorem getLsbD_not_highMask {k b : Nat} (hb : b < w.bits) (h : (~~~(ones w.bits k)).getLsbD b = true) : ¬ b < k := by
  intro hk
  simp only [BitVec.getLsbD_not, getLsbD_ones, hb, hk, decide_true, Bool.and_self, Bool.not_true, Bool.and_false,
    Bool.false_eq_true] at h

theorem memWrite_other_word (m : Store w) {g n : Nat} (v : BitVec n) (h : InRange g n) (hn : n ≤ 9) {i : Nat}
    (hi : i < w.nwords) (hfirst : i ≠ startWord w g) (hsecond : ¬ (i = startWord w g + 1 ∧ 0 < nHigh w g n)) :
    (memWrite m g n v h)[i] = m[i] := by
  refine BitVec.eq_of_getLsbD_eq fun b hb => getLsbD_memWrite_word m v h hn hi hb fun hin => ?_
  obtain ⟨hword, -⟩ | ⟨hword, hlt⟩ := word_of_accessed_bit hn hb hin
  · exact hfirst hword
  · exact hsecond ⟨hword, by omega⟩

theorem memWrite_first_word (m : Store w) {g n : Nat} (v : BitVec n) (h : InRange g n) (hn : n ≤ 9)
    (hi : startWord w g < w.nwords) :
    (memWrite m g n v h)[startWord w g] &&& ~~~(ones w.bits (nLow w g n) <<< startBit w g) =
      m[startWord w g] &&& ~~~(ones w.bits (nLow w g n) <<< startBit w g) := by
  refine and_eq_and_of_getLsbD fun b hb hmask => getLsbD_memWrite_word m v h hn hi hb fun hin => ?_
  obtain ⟨-, hlow⟩ | ⟨hword, -⟩ := word_of_accessed_bit hn hb hin
  · exact getLsbD_not_lowMask hb hmask hlow
  · omega

theorem memWrite_second_word (m : Store w) {g n : Nat} (v : BitVec n) (h : InRange g n) (hn : n ≤ 9)
    (hi : startWord w g + 1 < w.nwords) :
    (memWrite m g n v h)[startWord w g + 1] &&& ~~~(ones w.bits (nHigh w g n)) =
      m[startWord w g + 1] &&& ~~~(ones w.bits (nHigh w g n)) := by
  refine and_eq_and_of_getLsbD fun b hb hmask => getLsbD_memWrite_word m v h hn hi hb fun hin => ?_
  obtain ⟨hword, -⟩ | ⟨-, hhigh⟩ := word_of_accessed_bit hn hb hin
  · omega
  · exact getLsbD_not_highMask hb hmask hhigh

/-- Settles O28: bit by bit, then word by word, since a bit of the range lies under one of the two masks. -/
theorem writeDisturbsNoOtherBits : Obligations.WriteDisturbsNoOtherBits := by
  refine fun w m => ⟨fun g n v h hwidth => ?_, fun p v => ⟨fun q hq => ?_, bit_writeField_padding m p v⟩⟩
  · have hn : n ≤ 9 := by omega
    exact ⟨fun x hx hout => by rw [bit_memWrite _ _ _ _ _ hn, if_neg hout],
      fun i hi => memWrite_other_word m v h hn hi, memWrite_first_word m v h hn,
      fun hi _ => memWrite_second_word m v h hn hi⟩
  · rw [readField_writeField, if_neg hq]

/-! ### Single-bit accesses (R55) -/

theorem bit_memWrite_one (m : Store w) (g : Nat) (c : Bool) (h : InRange g 1) (x : Nat) (hx) :
    bit (memWrite m g 1 (BitVec.ofBool c) h) x hx = if x = g then c else bit m x hx := by
  rw [bit_memWrite _ _ _ _ _ (by decide)]
  by_cases hxg : x = g
  · subst hxg
    simp
  · rw [if_neg (by omega), if_neg hxg]

theorem memWrite_zero_eq_bitClear (m : Store w) (g : Nat) (h : InRange g 1) (hg : g < w.nwords * w.bits) :
    memWrite m g 1 0#1 h = bitClear m g hg :=
  store_ext fun x hx => (bit_memWrite_one m g false h x hx).trans (bit_bitClear m g hg x hx).symm

theorem memWrite_one_eq_bitSet (m : Store w) (g : Nat) (h : InRange g 1) (hg : g < w.nwords * w.bits) :
    memWrite m g 1 1#1 h = bitSet m g hg :=
  store_ext fun x hx => (bit_memWrite_one m g true h x hx).trans (bit_bitSet m g hg x hx).symm

theorem toNat_memRead_one (m : Store w) (g : Nat) (h : InRange g 1) (hg : g < w.nwords * w.bits) :
    (memRead m g 1 h).toNat = ((m[g / w.bits]'(startWord_lt hg)).toNat >>> (g % w.bits)) &&& 1 := by
  have hbit : memRead m g 1 h = BitVec.ofBool (bit m g hg) := by
    refine BitVec.eq_of_getLsbD_eq fun k hk => ?_
    obtain rfl : k = 0 := by omega
    rw [getLsbD_memRead _ _ _ _ (by decide) _ hk]
    simp
  rw [hbit, BitVec.toNat_ofBool, Nat.and_one_is_mod, Nat.shiftRight_eq_div_pow, ← Nat.toNat_testBit]
  rfl

/-- Single-bit writes of a value's listed bits, in the list's order. -/
def writeBits (m : Store w) (g : Nat) (v : BitVec 9) (h : InRange g 9) (order : List (Fin 9)) : Store w :=
  order.foldl (fun m k => memWrite m (g + k.val) 1 (BitVec.ofBool (v.getLsbD k.val)) (h.single k.isLt)) m

theorem bit_writeBits (m : Store w) (g : Nat) (v : BitVec 9) (h : InRange g 9) (order : List (Fin 9)) (x : Nat) (hx) :
    bit (writeBits m g v h order) x hx = if ∃ k ∈ order, x = g + k.val then v.getLsbD (x - g) else bit m x hx := by
  induction order generalizing m with
  | nil => simp [writeBits]
  | cons j order ih =>
    have hcons : writeBits m g v h (j :: order) =
        writeBits (memWrite m (g + j.val) 1 (BitVec.ofBool (v.getLsbD j.val)) (h.single j.isLt)) g v h order := rfl
    rw [hcons, ih, bit_memWrite_one]
    by_cases hj : x = g + j.val
    · simp [hj]
    · simp [hj]

/-- Settles O29: the stores have the same bits, whatever the order of the nine writes. -/
theorem singleBitAccessThroughPrimitives : Obligations.SingleBitAccessThroughPrimitives := by
  refine fun w m => ⟨fun g h hg => ⟨memWrite_zero_eq_bitClear m g h hg, memWrite_one_eq_bitSet m g h hg,
    toNat_memRead_one m g h hg⟩, fun g v h order horder => store_ext fun x hx => ?_⟩
  have hrange : (∃ k ∈ order, x = g + k.val) ↔ g ≤ x ∧ x < g + 9 := by
    constructor
    · rintro ⟨k, -, rfl⟩
      omega
    · rintro ⟨hge, hlt⟩
      exact ⟨⟨x - g, by omega⟩, horder.mem_iff.mpr (mem_nine _), (Nat.add_sub_cancel' hge).symm⟩
  refine (bit_writeBits m g v h order x hx).trans ?_
  simp only [hrange, bit_memWrite _ _ _ _ _ (Nat.le_refl 9)]

/-! ### Reading back (R56) -/

theorem memRead_memWrite_same (m : Store w) {g n : Nat} (v : BitVec n) (h : InRange g n) (hn : n ≤ 9) :
    memRead (memWrite m g n v h) g n h = v := by
  refine BitVec.eq_of_getLsbD_eq fun k hk => ?_
  rw [getLsbD_memRead _ _ _ _ hn _ hk, bit_memWrite _ _ _ _ _ hn, if_pos (by omega), Nat.add_sub_cancel_left]

theorem memRead_memWrite_disjoint (m : Store w) {g n g' n' : Nat} (v : BitVec n) (h : InRange g n) (h' : InRange g' n')
    (hn : n ≤ 9) (hn' : n' ≤ 9) (hdisjoint : g' + n' ≤ g ∨ g + n ≤ g') :
    memRead (memWrite m g n v h) g' n' h' = memRead m g' n' h' := by
  refine BitVec.eq_of_getLsbD_eq fun k hk => ?_
  rw [getLsbD_memRead _ _ _ _ hn' _ hk, getLsbD_memRead _ _ _ _ hn' _ hk, bit_memWrite _ _ _ _ _ hn, if_neg (by omega)]

theorem toNat_setWidth_sixteen (v : CandidateSet) : (v.setWidth 16).toNat = v.toNat :=
  BitVec.toNat_setWidth_of_le (by decide)

/-- Settles O30: the field of the cell is the set written, and the ranges are compared bit by bit. -/
theorem writeThenReadRoundTrip : Obligations.WriteThenReadRoundTrip := by
  refine ⟨fun s row col p v hrow hcol => ?_, fun w m g n v h hwidth => ?_⟩
  · refine ⟨_, execSetc_ok hrow hcol (toNat_setWidth_sixteen v) s, (execGetc_ok hrow hcol _).trans ?_⟩
    rw [State.cand_withRsp, State.cand_withMem, readField_writeField, if_pos rfl, respond, responseWord_ok v]
    rfl
  · exact ⟨memRead_memWrite_same m v h (by omega), fun g' n' h' hwidth' hdisjoint =>
      memRead_memWrite_disjoint m v h h' (by omega) (by omega) hdisjoint⟩

/-! ### Commands repeat (R66) -/

theorem clearIndex_clearIndex (m : Store w) (g : BitIndex) : clearIndex (clearIndex m g) g = clearIndex m g := by
  refine store_ext fun x hx => ?_
  simp only [clearIndex, bit_bitClear]
  by_cases hxg : x = g.val <;> simp [hxg]

theorem setIndex_setIndex (m : Store w) (g : BitIndex) : setIndex (setIndex m g) g = setIndex m g := by
  refine store_ext fun x hx => ?_
  simp only [setIndex, bit_bitSet]
  by_cases hxg : x = g.val <;> simp [hxg]

theorem writeField_writeField (m : Store w) (p : Cell) (v : CandidateSet) :
    writeField (writeField m p v) p v = writeField m p v := by
  refine store_eq_of_fields (fun q => ?_) fun k => bit_writeField_padding _ _ _ _ _ (Nat.le_add_right _ _)
  by_cases hq : q = p <;> simp [readField_writeField, hq]

theorem commitStore_commitStore (m : Store w) (p : Cell) (d : Digit) :
    commitStore (commitStore m p d) p d = commitStore m p d := by
  refine store_eq_of_fields (fun q => ?_) fun k => bit_commitStore_padding _ _ _ _ _ (Nat.le_add_right _ _)
  by_cases hq : q = p
  · simp [readField_commitStore, hq]
  · by_cases hpeer : isPeer p q = true <;> simp [readField_commitStore, hq, hpeer, without_without]

variable {m : Store w} {f : State → Result}

/-- The command answers from the store and leaves it as it is. -/
def ReadsOnly (f : State → Result) (m : Store w) : Prop := ∃ st d, Answers f m m st d

/-- The command leaves a store from which it answers the same and leaves the same. -/
def Repeats (f : State → Result) (m : Store w) : Prop := ∃ m' st d, Answers f m m' st d ∧ Answers f m' m' st d

theorem ReadsOnly.repeats (h : ReadsOnly f m) : Repeats f m := by
  obtain ⟨st, d, hanswers⟩ := h
  exact ⟨m, st, d, hanswers, hanswers⟩

theorem readsOnly_respond (st : Status) (d : BitVec 9) : ReadsOnly (respond st d) m := ⟨st, d, fun _ _ _ _ => rfl⟩

theorem readsOnly_raise (st : Status) : ReadsOnly (raise st) m := readsOnly_respond st 0#9

/-- A read whose outcome depends on what the store holds. -/
theorem readsOnly_of_eq {k : State → Result} (hk : ReadsOnly k m)
    (h : ∀ rsp inputs accepted taken, f ⟨w, m, rsp, inputs, accepted, taken⟩ = k ⟨w, m, rsp, inputs, accepted, taken⟩) :
    ReadsOnly f m := by
  obtain ⟨st, d, hanswers⟩ := hk
  exact ⟨st, d, fun rsp inputs accepted taken => (h rsp inputs accepted taken).trans (hanswers _ _ _ _)⟩

theorem readsOnly_checked {α : Type} (r : Except Status α) {k : α → State → Result} (h : ∀ a, ReadsOnly (k a) m) :
    ReadsOnly (fun s => checked r s fun a => k a s) m := by
  cases r with
  | error e => exact readsOnly_raise e
  | ok a => exact h a

theorem readsOnly_execGetc (row col : BitVec 4) : ReadsOnly (execGetc row col) m :=
  readsOnly_checked _ fun p => readsOnly_of_eq (readsOnly_respond .ok (readField m p)) fun _ _ _ _ => rfl

theorem readsOnly_execGetd (row col : BitVec 4) : ReadsOnly (execGetd row col) m :=
  readsOnly_checked _ fun p =>
    readsOnly_of_eq (readsOnly_checked (toDigit (readField m p)) fun d => readsOnly_respond .ok (digitData d))
      fun _ _ _ _ => rfl

theorem repeats_checked {α : Type} (r : Except Status α) {k : α → State → Result} (h : ∀ a, Repeats (k a) m) :
    Repeats (fun s => checked r s fun a => k a s) m := by
  cases r with
  | error e => exact (readsOnly_raise e).repeats
  | ok a => exact h a

theorem repeats_respond_mem (write : (w : Width) → Store w → Store w) (h : ∀ w m, write w (write w m) = write w m) :
    Repeats (fun s => respond .ok 0#9 (s.withMem (write s.width s.mem))) m := by
  have hanswers (m : Store w) :
      Answers (fun s => respond .ok 0#9 (s.withMem (write s.width s.mem))) m (write w m) .ok 0#9 := fun _ _ _ _ => rfl
  exact ⟨write w m, .ok, 0#9, hanswers m, by simpa only [h] using hanswers (write w m)⟩

theorem exec_repeats (i : Instr) (m : Store w) : Repeats (exec i) m := by
  cases i with
  | new => exact repeats_respond_mem (fun w _ => freshStore w) fun _ _ => rfl
  | setc row col set =>
    exact repeats_checked _ fun p => repeats_checked _ fun v =>
      repeats_respond_mem (fun _ m => writeField m p v) fun _ m => writeField_writeField m p v
  | setd row col digit =>
    exact repeats_checked _ fun p => repeats_checked _ fun d =>
      repeats_respond_mem (fun _ m => writeField m p (fromDigit d)) fun _ m => writeField_writeField m p (fromDigit d)
  | getc row col => exact (readsOnly_execGetc row col).repeats
  | getd row col => exact (readsOnly_execGetd row col).repeats
  | commit row col digit =>
    exact repeats_checked _ fun p => repeats_checked _ fun d =>
      repeats_respond_mem (fun _ m => commitStore m p d) fun _ m => commitStore_commitStore m p d
  | clrbit index =>
    exact repeats_checked _ fun g => repeats_respond_mem (fun _ m => clearIndex m g) fun _ m => clearIndex_clearIndex m g
  | setbit index =>
    exact repeats_checked _ fun g => repeats_respond_mem (fun _ m => setIndex m g) fun _ m => setIndex_setIndex m g

theorem exec_readsOnly {i : Instr} (h : ∃ row col, i = .getc row col ∨ i = .getd row col) (m : Store w) :
    ReadsOnly (exec i) m := by
  obtain ⟨row, col, rfl | rfl⟩ := h
  · exact readsOnly_execGetc row col
  · exact readsOnly_execGetd row col

/-- Settles O44: a read leaves its store, and every write of a store is idempotent. -/
theorem commandsAreIdempotent : Obligations.CommandsAreIdempotent := by
  intro i s
  by_cases hread : ∃ row col, i = .getc row col ∨ i = .getd row col
  · obtain ⟨st, d, h⟩ := exec_readsOnly hread s.mem
    exact ⟨s.mem, responseWord st d, h _ _ _ _, h _ _ _ _, fun _ => rfl⟩
  · obtain ⟨m, st, d, h, hagain⟩ := exec_repeats i s.mem
    exact ⟨m, responseWord st d, h _ _ _ _, hagain _ _ _ _, fun hr => absurd hr hread⟩

end Sys2Proof.Machine
end

section
/-! PROOFS of the statements on the encoding (30_encoding.md): decoding and encoding undo each other (R67 to R76), the
words that are no command (R77, R78), the checks of R81 in their order, responses (R74, R75), the rounds at the ports
(R86) and lines of a listing (R82, R83). -/

namespace Sys2Proof.Machine

/-! ### The match and mask table (R76) -/

@[simp] theorem opcode_instr (op : Opcode) (c : Cmd) : (op.instr c).opcode = op := by cases op <;> rfl

theorem ofCode_eq_some_iff (code : BitVec 4) (op : Opcode) : Opcode.ofCode code = some op ↔ code = op.code := by
  revert code
  cases op <;> decide

/-- Under its mask a word shows its `OP` field, which the match fixes. -/
theorem opField_of_match {op : Opcode} {c : Cmd} (h : c &&& op.mask = op.pattern) : opField c = op.code := by
  have hmask : opField op.mask = BitVec.allOnes 4 := by cases op <;> rfl
  have hpattern : opField op.pattern = op.code := by cases op <;> rfl
  calc opField c = opField c &&& opField op.mask := by rw [hmask, BitVec.and_allOnes]
    _ = opField (c &&& op.mask) := BitVec.extractLsb'_and.symm
    _ = op.code := by rw [h, hpattern]

/-- The mask holds the must-be-zero bits, and the match has zeros there. -/
theorem mustBeZero_of_match {op : Opcode} {c : Cmd} (h : c &&& op.mask = op.pattern) :
    c &&& op.format.mustBeZero = 0#32 := by
  have hmask : op.mask &&& op.format.mustBeZero = op.format.mustBeZero := by cases op <;> rfl
  have hpattern : op.pattern &&& op.format.mustBeZero = 0#32 := by cases op <;> rfl
  rw [← hmask, ← BitVec.and_assoc, h, hpattern]

/-- Steps 1 and 2 of R81: a word decodes to the command of exactly that row of the table that it matches, with the
operands of the word. -/
theorem decodeCommand_eq_ok_iff (c : Cmd) (i : Instr) :
    decodeCommand c = .ok i ↔ ∃ op : Opcode, c &&& op.mask = op.pattern ∧ op.instr c = i := by
  constructor
  · intro h
    unfold decodeCommand at h
    split at h
    · cases h
    next op _ =>
      split at h
      next hmatch => exact ⟨op, hmatch, Except.ok.inj h⟩
      · cases h
  · rintro ⟨op, hmatch, rfl⟩
    simp only [decodeCommand, (ofCode_eq_some_iff _ op).mpr (opField_of_match hmatch), if_pos hmatch]

theorem match_iff_decodeCommand (op : Opcode) (c : Cmd) :
    c &&& op.mask = op.pattern ↔ decodeCommand c = .ok (op.instr c) := by
  rw [decodeCommand_eq_ok_iff]
  constructor
  · exact fun h => ⟨op, h, rfl⟩
  · rintro ⟨op', h, hinstr⟩
    have hop : op' = op := by rw [← opcode_instr op' c, hinstr, opcode_instr]
    exact hop ▸ h

/-- Before operand validation the only error is `IllegalCommand` (R77, R78). -/
theorem decodeCommand_cases (c : Cmd) :
    (∃ i, decodeCommand c = .ok i) ∨ decodeCommand c = .error .illegalCommand := by
  unfold decodeCommand
  split
  · exact .inr rfl
  next op _ =>
    by_cases hmatch : c &&& op.mask = op.pattern
    · exact .inl ⟨_, if_pos hmatch⟩
    · exact .inr (if_neg hmatch)

theorem decodeCommand_of_no_command {c : Cmd} (h : ∀ i, decodeCommand c ≠ .ok i) :
    decodeCommand c = .error .illegalCommand :=
  (decodeCommand_cases c).resolve_left fun ⟨i, hi⟩ => h i hi

/-- Settles O4: each row is the equivalence for its opcode. -/
theorem wordIsACommandExactlyWhenItsMaskMatches : Obligations.WordIsACommandExactlyWhenItsMaskMatches := fun c =>
  ⟨match_iff_decodeCommand .new c, match_iff_decodeCommand .setc c, match_iff_decodeCommand .setd c,
    match_iff_decodeCommand .getc c, match_iff_decodeCommand .getd c, match_iff_decodeCommand .commit c,
    match_iff_decodeCommand .clrbit c, match_iff_decodeCommand .setbit c, decodeCommand_of_no_command⟩

/-! ### Decoding what was encoded (R67 to R76, R81) -/

theorem decode_eq_ok_iff (c : Cmd) (i : Instr) :
    decode c = .ok i ↔ decodeCommand c = .ok i ∧ operandError i = none := by
  cases hcommand : decodeCommand c with
  | error e => simp [decode, hcommand]
  | ok j =>
    cases hcheck : operandError j with
    | some e =>
      simp only [decode, hcommand, hcheck, reduceCtorEq, false_iff, Except.ok.injEq]
      rintro ⟨rfl, hnone⟩
      exact absurd (hcheck.symm.trans hnone) nofun
    | none =>
      simp only [decode, hcommand, hcheck, Except.ok.injEq]
      exact ⟨fun h => ⟨h, h ▸ hcheck⟩, And.left⟩

theorem decode_eq_error_iff (c : Cmd) (e : Status) :
    decode c = .error e ↔ decodeCommand c = .error e ∨ ∃ i, decodeCommand c = .ok i ∧ operandError i = some e := by
  cases hcommand : decodeCommand c with
  | error e' => simp [decode, hcommand]
  | ok j => cases hcheck : operandError j <;> simp [decode, hcommand, hcheck]

/-- Settles O2: the word matches its row and holds the operands, and the operand checks find nothing on operands in
range. -/
theorem decodeOfEncode : Obligations.DecodeOfEncode := fun i =>
  ⟨decodeCommand_encode i, fun hwf =>
    (decode_eq_ok_iff _ i).mpr ⟨decodeCommand_encode i, (operandError_eq_none_iff i).mpr hwf⟩⟩

/-! ### Encoding what was decoded (R67 to R76) -/

/-- A field whose bits are all required to be zero is zero. -/
theorem field_eq_zero {c mask : Cmd} (start len : Nat) (h : c &&& mask = 0#32)
    (hmask : mask.extractLsb' start len = BitVec.allOnes len) : c.extractLsb' start len = 0#len := by
  calc c.extractLsb' start len = c.extractLsb' start len &&& mask.extractLsb' start len := by
        rw [hmask, BitVec.and_allOnes]
    _ = (c &&& mask).extractLsb' start len := BitVec.extractLsb'_and.symm
    _ = 0#len := by rw [h, BitVec.extractLsb'_zero]

/-- Adjacent fields of a word make one field (R67). -/
theorem append_adjacent (c : Cmd) {start len len' : Nat} :
    c.extractLsb' (start + len) len' ++ c.extractLsb' start len = c.extractLsb' start (len' + len) :=
  BitVec.extractLsb'_append_extractLsb'_eq_extractLsb' rfl

theorem row_append_col (c : Cmd) : rowField c ++ colField c = c.extractLsb' 20 8 := append_adjacent c

theorem operandBits_p {c : Cmd} (z : c.extractLsb' 0 20 = 0#20) :
    rowField c ++ colField c ++ 0#20 = c.extractLsb' 0 28 := by
  rw [row_append_col, ← z]
  exact append_adjacent c

/-- `ROW` to `IMM` make the operand bits; the formats PS and PD each require one of the last two to be zero. -/
theorem operandBits_four_fields (c : Cmd) :
    rowField c ++ colField c ++ digField c ++ immField c = c.extractLsb' 0 28 := by
  rw [row_append_col]
  exact (congrArg (· ++ immField c) (append_adjacent c)).trans (append_adjacent c)

theorem operandBits_b {c : Cmd} (z : c.extractLsb' 16 12 = 0#12) : 0#12 ++ immField c = c.extractLsb' 0 28 := by
  rw [← z]
  exact append_adjacent c

theorem operandBits_pd {c : Cmd} (z : immField c = 0#16) :
    rowField c ++ colField c ++ digField c ++ 0#16 = c.extractLsb' 0 28 :=
  z ▸ operandBits_four_fields c

theorem operandBits_ps {c : Cmd} (z : digField c = 0#4) :
    rowField c ++ colField c ++ 0#4 ++ immField c = c.extractLsb' 0 28 :=
  z ▸ operandBits_four_fields c

/-- The operand bits written for the fields of a word are the word's own, when those that the format has no field for
are zero (R68 to R72). -/
theorem operandBits_instr {op : Opcode} {c : Cmd} (h : c &&& op.format.mustBeZero = 0#32) :
    (op.instr c).operandBits = c.extractLsb' 0 28 := by
  cases op with
  | new => exact (field_eq_zero 0 28 h rfl).symm
  | setc => exact operandBits_ps (field_eq_zero 16 4 h rfl)
  | setd => exact operandBits_pd (field_eq_zero 0 16 h rfl)
  | getc => exact operandBits_p (field_eq_zero 0 20 h rfl)
  | getd => exact operandBits_p (field_eq_zero 0 20 h rfl)
  | commit => exact operandBits_pd (field_eq_zero 0 16 h rfl)
  | clrbit => exact operandBits_b (field_eq_zero 16 12 h rfl)
  | setbit => exact operandBits_b (field_eq_zero 16 12 h rfl)

/-- A word that matches a row of the table is the encoding of that row's command (R76). -/
theorem encode_instr {op : Opcode} {c : Cmd} (h : c &&& op.mask = op.pattern) : encode (op.instr c) = c :=
  calc encode (op.instr c) = op.code ++ c.extractLsb' 0 28 := by
        rw [encode, opcode_instr, operandBits_instr (mustBeZero_of_match h)]
    _ = opField c ++ c.extractLsb' 0 28 := by rw [opField_of_match h]
    _ = c.extractLsb' 0 32 := BitVec.extractLsb'_append_extractLsb'_eq_extractLsb' rfl
    _ = c := BitVec.extractLsb'_eq_self

/-- Settles O3: the word matches the row of the command, so it is that command's encoding. -/
theorem encodeOfDecode : Obligations.EncodeOfDecode := by
  intro c i h
  obtain ⟨op, hmatch, rfl⟩ := (decodeCommand_eq_ok_iff c i).mp h
  exact encode_instr hmatch

/-- Settles O1, by evaluating both directions on each of the ten words. -/
theorem decodesTheSpecsExampleWords : Obligations.DecodesTheSpecsExampleWords := by
  unfold Obligations.DecodesTheSpecsExampleWords
  decide

/-! ### Words that are no command (R77, R78) -/

theorem execute_of_illegal {c : Cmd} (h : decodeCommand c = .error .illegalCommand) (s : State) :
    execute c s = .next { s with rsp := some 0x6000#16 } := by
  simp only [execute, h]
  rfl

theorem ofCode_eq_none_iff (code : BitVec 4) : Opcode.ofCode code = none ↔ code.toNat = 0 ∨ 9 ≤ code.toNat := by
  revert code
  decide

theorem decodeCommand_of_reserved {c : Cmd} (h : (opField c).toNat = 0 ∨ 9 ≤ (opField c).toNat) :
    decodeCommand c = .error .illegalCommand := by
  simp only [decodeCommand, (ofCode_eq_none_iff _).mpr h]

/-- With the `OP` field of a command, the word is that command's or illegal. -/
theorem decodeCommand_of_opField {op : Opcode} {c : Cmd} (h : opField c = op.code) :
    decodeCommand c = if c &&& op.mask = op.pattern then .ok (op.instr c) else .error .illegalCommand := by
  simp only [decodeCommand, (ofCode_eq_some_iff _ op).mpr h]

theorem decodeCommand_of_mustBeZero {op : Opcode} {c : Cmd} (hop : opField c = op.code)
    (h : c &&& op.format.mustBeZero ≠ 0#32) : decodeCommand c = .error .illegalCommand := by
  rw [decodeCommand_of_opField hop, if_neg fun hmatch => h (mustBeZero_of_match hmatch)]

/-- Settles O5: no row has a reserved opcode, and a word that matches a row has zeros where its format asks for them. -/
theorem illegalWordsAnswerIllegalCommand : Obligations.IllegalWordsAnswerIllegalCommand := by
  intro c s op hop h
  have hcode (o : Opcode) (ho : op = o.code.toNat) : opField c = o.code := BitVec.eq_of_toNat_eq (hop.trans ho)
  refine execute_of_illegal ?_ s
  obtain h | h | ⟨ho, h⟩ | ⟨ho, h⟩ | ⟨ho | ho, h⟩ | ⟨ho | ho, h⟩ | ⟨ho | ho, h⟩ := h
  · exact decodeCommand_of_reserved (.inl (hop.trans h))
  · exact decodeCommand_of_reserved (.inr (h.trans_eq hop.symm))
  · exact decodeCommand_of_mustBeZero (hcode .new ho) h
  · exact decodeCommand_of_mustBeZero (hcode .setc ho) h
  · exact decodeCommand_of_mustBeZero (hcode .setd ho) h
  · exact decodeCommand_of_mustBeZero (hcode .commit ho) h
  · exact decodeCommand_of_mustBeZero (hcode .getc ho) h
  · exact decodeCommand_of_mustBeZero (hcode .getd ho) h
  · exact decodeCommand_of_mustBeZero (hcode .clrbit ho) h
  · exact decodeCommand_of_mustBeZero (hcode .setbit ho) h

/-! ### The rounds at the ports (R86) -/

/-- Settles O8: the round is an acceptance, and executing the word is the answer to an illegal word. -/
theorem stepAnswersAWordThatIsNoCommand : Obligations.StepAnswersAWordThatIsNoCommand := by
  intro s c ready rest hinputs hrsp h
  calc step s = accept c s.dropInput := step_of_portEvent_accept hinputs (portEvent_of_offer hrsp)
    _ = .next { s.dropInput.recordAccepted c with rsp := some 0x6000#16 } :=
      execute_of_illegal (decodeCommand_of_no_command h) _
    _ = .next { s with inputs := rest, accepted := s.accepted ++ [c], rsp := some 0x6000#16 } := by
      simp only [State.dropInput, State.recordAccepted, hinputs, List.tail_cons]

theorem portEvent_take {s : State} {inp : HostInput} {r : Rsp} (hrst : inp.rst = false) (hrsp : s.rsp = some r)
    (hready : inp.rspReady = true) : s.portEvent inp = .take := by
  simp [State.portEvent, State.rspValid, hrst, hrsp, hready]

theorem portEvent_nothing {s : State} {inp : HostInput} (hrst : inp.rst = false) (hrsp : s.rsp = none)
    (hcmd : inp.cmd = none) : s.portEvent inp = .nothing := by
  simp [State.portEvent, State.rspValid, hrst, hrsp, hcmd]

/-- Settles O9: the event of the round is a take or nothing. -/
theorem takeAndIdleRounds : Obligations.TakeAndIdleRounds := by
  intro s inp rest hinputs hrst
  have hdrop : s.dropInput = { s with inputs := rest } := by rw [State.dropInput, hinputs, List.tail_cons]
  constructor
  · intro r hrsp hready
    simp only [step, hinputs, portEvent_take hrst hrsp hready]
    rw [State.takeResponse_of_some (s := s.dropInput) hrsp, hdrop]
  · intro hrsp hcmd
    simp only [step, hinputs, portEvent_nothing hrst hrsp hcmd, hdrop]

/-! ### Response words (R74, R75) -/

theorem toNat_statusCode_le (st : Status) : (statusCode st).toNat ≤ 6 := by cases st <;> decide

theorem reservedBits_responseWord (st : Status) (d : BitVec 9) : (responseWord st d).extractLsb' 9 3 = 0#3 := by
  rw [responseWord, BitVec.extractLsb'_append_eq_of_le (Nat.le_refl 9)]
  exact BitVec.extractLsb'_append_eq_right

theorem wellFormedResponse_responseWord {st : Status} {d : BitVec 9} (h : st ≠ .ok → d = 0#9) :
    WellFormedResponse (responseWord st d) := by
  refine ⟨reservedBits_responseWord st d, ?_, ?_⟩
  · rw [statusField_responseWord]
    exact toNat_statusCode_le st
  · rw [statusField_responseWord, dataField_responseWord]
    exact fun hst => h fun hok => hst (congrArg statusCode hok)

/-- An accepted word on an empty response port adds its own response to those waiting or taken. -/
theorem responsesWellFormed_of_accept {c : Cmd} {s t : State} (hs : s.ResponsesWellFormed)
    (h : accept c s = .next t) : t.ResponsesWellFormed := by
  obtain ⟨m, st, d, haccept, -, -, herror⟩ := accept_next c s
  cases haccept.symm.trans h
  intro r hr
  obtain hr | hr := List.mem_append.mp hr
  · exact hs r (List.mem_append_left _ hr)
  · obtain rfl : r = responseWord st d := by simpa using hr
    exact wellFormedResponse_responseWord fun hst => (herror hst).1

/-- Settles O40: an accepted word answers a word of the form of R74, and every other event of a round leaves each
response where it is, moves it from waiting to taken, or discards it. -/
theorem stepKeepsResponsesWellFormed : Obligations.StepKeepsResponsesWellFormed := by
  intro s t hs hstep
  obtain ⟨-, h⟩ | ⟨inp, rest, -, ⟨-, h⟩ | ⟨-, -, -, h⟩ | ⟨c, -, -, -, h⟩ | ⟨-, -, -, h⟩⟩ := step_cases s
  case inr.inr.inr.inl => exact responsesWellFormed_of_accept (s := s.dropInput) hs (h.symm.trans hstep)
  all_goals cases h.symm.trans hstep
  case inl => exact hs
  case inr.inl => exact resetResponsesAreWellFormed s.width
  case inr.inr.inl =>
    intro r hr
    rw [State.takeResponse_taken, State.takeResponse_rsp, Option.toList_none, List.append_nil] at hr
    exact hs r hr
  case inr.inr.inr.inr => exact hs

/-! ### The checks of R81 in their order -/

theorem coordError_eq (row col : BitVec 4) :
    coordError row col = if 8 < row.toNat ∨ 8 < col.toNat then some .invalidCoordinate else none := by
  by_cases h : 8 < row.toNat ∨ 8 < col.toNat
  · have hout : ¬ (row.toNat ≤ 8 ∧ col.toNat ≤ 8) := by omega
    simp only [coordError, Bool.and_eq_true, coordOK_iff, if_neg hout, if_pos h]
  · have hin : row.toNat ≤ 8 ∧ col.toNat ≤ 8 := by omega
    simp only [coordError, Bool.and_eq_true, coordOK_iff, if_pos hin, if_neg h]

theorem digitError_eq (digit : BitVec 4) :
    digitError digit = if 8 < digit.toNat then some .invalidDigit else none := by
  simp only [digitError, digitOK_iff, ← Nat.not_lt, ite_not]

theorem setError_eq (set : BitVec 16) : setError set = if 0x1FF < set.toNat then some .setTooLarge else none := by
  simp only [setError, ← Nat.not_lt, ite_not]

theorem indexError_eq (index : BitVec 16) :
    indexError index = if 728 < index.toNat then some .bitIndexOutOfRange else none := by
  simp only [indexError, bitIndexOK_iff, ← Nat.not_lt, ite_not]

/-- An operand check that fails decides the outcome; one that passes leaves it to what comes after. -/
def afterCheck (check : Option Status) (rest : Except Status Instr) : Except Status Instr := check.elim rest .error

theorem afterCheck_none (rest : Except Status Instr) : afterCheck none rest = rest := rfl

theorem afterCheck_or (check check' : Option Status) (rest : Except Status Instr) :
    afterCheck (check.or check') rest = afterCheck check (afterCheck check' rest) := by
  cases check <;> rfl

theorem afterCheck_ite (p : Prop) [Decidable p] (e : Status) (rest : Except Status Instr) :
    afterCheck (if p then some e else none) rest = if p then .error e else rest := by
  split <;> rfl

theorem decode_of_no_match {op : Opcode} {c : Cmd} (hop : opField c = op.code) (h : ¬ c &&& op.mask = op.pattern) :
    decode c = .error .illegalCommand :=
  (decode_eq_error_iff _ _).mpr (.inl ((decodeCommand_of_opField hop).trans (if_neg h)))

/-- What is left of R81 on a word that matches a row of the table: the operand checks. -/
theorem decode_of_match {op : Opcode} {c : Cmd} (h : c &&& op.mask = op.pattern) :
    decode c = afterCheck (operandError (op.instr c)) (decodeCommand c) := by
  have hcommand := (match_iff_decodeCommand op c).mp h
  cases hcheck : operandError (op.instr c) with
  | none => exact ((decode_eq_ok_iff _ _).mpr ⟨hcommand, hcheck⟩).trans hcommand.symm
  | some e => exact (decode_eq_error_iff _ _).mpr (.inr ⟨_, hcommand, hcheck⟩)

theorem exists_opcode_of_not_reserved {code : BitVec 4} (h : ¬ (code.toNat = 0 ∨ 9 ≤ code.toNat)) :
    ∃ op : Opcode, code = op.code := by
  cases hcode : Opcode.ofCode code with
  | none => exact absurd ((ofCode_eq_none_iff code).mp hcode) h
  | some op => exact ⟨op, (ofCode_eq_some_iff code op).mp hcode⟩

theorem execute_of_decode_error {c : Cmd} {e : Status} (h : decode c = .error e) (s : State) :
    execute c s = raise e s := by
  obtain hcommand | ⟨i, hcommand, hcheck⟩ := (decode_eq_error_iff c e).mp h
  · simp only [execute, hcommand]
  · rw [execute_of_decodeCommand hcommand, exec_operandError hcheck]

theorem execute_of_decode_ok {c : Cmd} {i : Instr} (h : decode c = .ok i) (s : State) : execute c s = exec i s :=
  execute_of_decodeCommand ((decode_eq_ok_iff c i).mp h).1 s

theorem opField_of_decode_ok {c : Cmd} {i : Instr} (h : decode c = .ok i) : opField c = i.opcode.code := by
  obtain ⟨hcommand, -⟩ := (decode_eq_ok_iff c i).mp h
  obtain ⟨op, hmatch, rfl⟩ := (decodeCommand_eq_ok_iff c i).mp hcommand
  rw [opcode_instr, opField_of_match hmatch]

theorem toDigit_cases (v : CandidateSet) : (∃ d, toDigit v = .ok d) ∨ toDigit v = .error .ambiguousCandidates := by
  by_cases hcount : count v = 1
  · cases hctz : ctz? v with
    | some d => exact .inl ⟨d, (toDigit_eq_ok_iff v d).mpr ⟨hcount, hctz⟩⟩
    | none => exact .inr (by simp only [toDigit, if_pos hcount, hctz])
  · exact .inr (toDigit_of_count_ne_one hcount)

theorem exists_cell {row col : BitVec 4} (hrow : row.toNat ≤ 8) (hcol : col.toNat ≤ 8) :
    ∃ p : Cell, row.toNat = p.row.val ∧ col.toNat = p.col.val :=
  (coords_cases row col).resolve_right (by omega)

/-- Past the operand checks a command answers `OK`, or `AmbiguousCandidates` when it is GETD (R128). -/
theorem exec_of_wellFormed {i : Instr} (h : i.WellFormed) (s : State) :
    (∃ d t, exec i s = respond .ok d t) ∨ (i.opcode = .getd ∧ exec i s = raise .ambiguousCandidates s) := by
  cases i with
  | new => exact .inl ⟨_, _, rfl⟩
  | setc row col set =>
    obtain ⟨hrow, hcol, hset⟩ := h
    obtain ⟨p, hrow, hcol⟩ := exists_cell hrow hcol
    obtain ⟨v, hv⟩ := (set_cases set).resolve_right hset.not_gt
    exact .inl ⟨_, _, execSetc_ok hrow hcol hv s⟩
  | setd row col digit =>
    obtain ⟨hrow, hcol, hdigit⟩ := h
    obtain ⟨p, hrow, hcol⟩ := exists_cell hrow hcol
    obtain ⟨d, hd⟩ := (digit_cases digit).resolve_right hdigit.not_gt
    exact .inl ⟨_, _, execSetd_ok hrow hcol hd s⟩
  | getc row col =>
    obtain ⟨hrow, hcol⟩ := h
    obtain ⟨p, hrow, hcol⟩ := exists_cell hrow hcol
    exact .inl ⟨_, _, execGetc_ok hrow hcol s⟩
  | getd row col =>
    obtain ⟨hrow, hcol⟩ := h
    obtain ⟨p, hrow, hcol⟩ := exists_cell hrow hcol
    have hexec : exec (.getd row col) s = _ := execGetd_ok hrow hcol s
    obtain ⟨d, hd⟩ | hambiguous := toDigit_cases (s.cand p)
    · exact .inl ⟨_, _, by rw [hexec, hd]; rfl⟩
    · exact .inr ⟨rfl, by rw [hexec, hambiguous]; rfl⟩
  | commit row col digit =>
    obtain ⟨hrow, hcol, hdigit⟩ := h
    obtain ⟨p, hrow, hcol⟩ := exists_cell hrow hcol
    obtain ⟨d, hd⟩ := (digit_cases digit).resolve_right hdigit.not_gt
    exact .inl ⟨_, _, execCommit_ok hrow hcol hd s⟩
  | clrbit index =>
    obtain ⟨g, hg⟩ := (index_cases index).resolve_right h.not_gt
    exact .inl ⟨_, _, execClrbit_ok hg s⟩
  | setbit index =>
    obtain ⟨g, hg⟩ := (index_cases index).resolve_right h.not_gt
    exact .inl ⟨_, _, execSetbit_ok hg s⟩

theorem statusField_of_respond {st : Status} {d : BitVec 9} {s t : State} {r : Rsp} (h : respond st d s = .next t)
    (hr : t.rsp = some r) : statusField r = statusCode st := by
  cases h
  cases hr
  exact statusField_responseWord st d

/-- Settles O6: a reserved opcode fails the first check; for each opcode the checks are its mask and then its operands',
in the order of R81; and the meanings make the same operand checks. -/
theorem decodeRunsTheChecksInOrder : Obligations.DecodeRunsTheChecksInOrder := by
  refine ⟨fun c op hop => ?_, fun c s => ?_, fun c i s t r hdecode hexecute hr => ?_⟩
  · by_cases hreserved : op = 0 ∨ 9 ≤ op
    · rw [if_pos hreserved, decode_eq_error_iff]
      exact .inl (decodeCommand_of_reserved (hop.symm ▸ hreserved))
    · obtain ⟨o, ho⟩ := exists_opcode_of_not_reserved (code := opField c) (hop.symm ▸ hreserved)
      obtain rfl : o.code.toNat = op := (congrArg BitVec.toNat ho).symm.trans hop
      by_cases hmatch : c &&& o.mask = o.pattern
      · rw [decode_of_match hmatch]
        revert hmatch
        cases o <;>
          simp +contextual [Opcode.code, Opcode.mask, Opcode.pattern, Opcode.format, Format.mustBeZero, Opcode.instr,
            operandError, afterCheck_none, afterCheck_or, afterCheck_ite, coordError_eq, digitError_eq, setError_eq,
            indexError_eq, rowField, colField, digField, immField]
      · rw [decode_of_no_match ho hmatch]
        revert hmatch
        cases o <;> simp +contextual [Opcode.code, Opcode.mask, Opcode.pattern, Opcode.format, Format.mustBeZero]
  · cases hdecode : decode c with
    | error e => exact execute_of_decode_error hdecode s
    | ok i => exact execute_of_decode_ok hdecode s
  · rw [execute_of_decode_ok hdecode] at hexecute
    have hwf := (operandError_eq_none_iff i).mp ((decode_eq_ok_iff c i).mp hdecode).2
    obtain ⟨d, u, h⟩ | ⟨hgetd, h⟩ := exec_of_wellFormed hwf s
    · exact .inl (statusField_of_respond (h.symm.trans hexecute) hr)
    · refine .inr ⟨statusField_of_respond (h.symm.trans hexecute) hr, ?_⟩
      have hop := opField_of_decode_ok hdecode
      rw [hgetd] at hop
      exact congrArg BitVec.toNat hop

/-! ### Lines of a listing (R82, R83) -/

/-- Settles O50, by evaluation of each line. -/
theorem assemblesListingLines : Obligations.AssemblesListingLines := by
  unfold Obligations.AssemblesListingLines
  decide

end Sys2Proof.Machine
end

section
/-! PROOFS of the statement on initialisation (40_init.md): what NEW leaves, and that no other command writes the padding
(R33, R89). -/

namespace Sys2Proof.Machine

/-! ### Words with a must-be-zero bit set (R78) -/

/-- A word of a command's opcode is illegal when a field that its format requires to be zero is not. -/
theorem execute_of_field_ne_zero {op : Opcode} {c : Cmd} {start len : Nat} (hop : opField c = op.code)
    (hmask : op.format.mustBeZero.extractLsb' start len = BitVec.allOnes len) (h : c.extractLsb' start len ≠ 0#len)
    (s : State) : execute c s = .next { s with rsp := some 0x6000#16 } :=
  execute_of_illegal (decodeCommand_of_mustBeZero hop fun hzero => h (field_eq_zero start len hzero hmask)) s

/-! ### Commands that leave the padding bits (R33) -/

/-- From `s` the result is a next state with `M` and the response replaced, each padding bit of `M` being that of `s`. -/
def LeavesPadding (s : State) (result : Result) : Prop :=
  ∃ (m : Store s.width) (r : Rsp),
    result = .next { s with mem := m, rsp := some r } ∧ ∀ x hx, 729 ≤ x → bit m x hx = bit s.mem x hx

theorem leavesPadding_respond (s : State) (st : Status) (d : BitVec 9) : LeavesPadding s (respond st d s) :=
  ⟨s.mem, responseWord st d, rfl, fun _ _ _ => rfl⟩

theorem leavesPadding_respond_withMem {s : State} {m : Store s.width} (st : Status) (d : BitVec 9)
    (h : ∀ x hx, 729 ≤ x → bit m x hx = bit s.mem x hx) : LeavesPadding s (respond st d (s.withMem m)) :=
  ⟨m, responseWord st d, rfl, h⟩

/-- A failed operand check answers its status and writes nothing. -/
theorem leavesPadding_checked {s : State} {α : Type} (r : Except Status α) {k : α → Result}
    (h : ∀ a, LeavesPadding s (k a)) : LeavesPadding s (checked r s k) := by
  cases r with
  | error e => exact leavesPadding_respond s e 0#9
  | ok a => exact h a

/-- Every command but NEW reads `M` or writes it at bits below 729 only. -/
theorem exec_leavesPadding {i : Instr} (hi : i ≠ .new) (s : State) : LeavesPadding s (exec i s) := by
  cases i with
  | new => exact absurd rfl hi
  | setc row col set =>
    exact leavesPadding_checked _ fun p => leavesPadding_checked _ fun v =>
      leavesPadding_respond_withMem _ _ (bit_writeField_padding s.mem p v)
  | setd row col digit =>
    exact leavesPadding_checked _ fun p => leavesPadding_checked _ fun d =>
      leavesPadding_respond_withMem _ _ (bit_writeField_padding s.mem p (fromDigit d))
  | getc row col => exact leavesPadding_checked _ fun p => leavesPadding_respond s _ _
  | getd row col =>
    exact leavesPadding_checked _ fun p => leavesPadding_checked _ fun d => leavesPadding_respond s _ _
  | commit row col digit =>
    exact leavesPadding_checked _ fun p => leavesPadding_checked _ fun d =>
      leavesPadding_respond_withMem _ _ (bit_commitStore_padding s.mem p d)
  | clrbit index =>
    exact leavesPadding_checked _ fun g => leavesPadding_respond_withMem _ _ (bit_clearIndex_padding s.mem g)
  | setbit index =>
    exact leavesPadding_checked _ fun g => leavesPadding_respond_withMem _ _ (bit_setIndex_padding s.mem g)

/-! ### NEW (R89) -/

theorem exec_new (s : State) : exec .new s = respond .ok 0#9 (s.withMem (freshStore s.width)) := rfl

/-- NEW answers a state that holds the fresh store and the `OK` response, which is what a second NEW would leave. -/
theorem exec_new_of_exec_new {s t : State} (h : exec .new s = .next t) : exec .new t = .next t := by
  rw [exec_new] at h
  cases h
  rfl

/-- Settles O14: the word is NEW's encoding, NEW leaves the fresh store, any further bit of the word is one that format N
requires to be zero, and the store operations of the other commands stay below bit 729. -/
theorem newFillsTheStore : Obligations.NewFillsTheStore := by
  refine ⟨execute_of_decodeCommand (decodeCommand_encode .new), exec_new, ?_, fun c s hop h => ?_,
    fun s t => exec_new_of_exec_new, fun i s hi => exec_leavesPadding hi s⟩
  · rintro w m rfl
    exact ⟨rfl, readField_freshStore, bit_freshStore w⟩
  · have hcode : opField c = Opcode.new.code := BitVec.eq_of_toNat_eq hop
    exact execute_of_field_ne_zero hcode rfl h s

end Sys2Proof.Machine
end

section
/-! PROOFS of the statements on field writes (41_field_write.md): what SETC and SETD write and what reads answer
afterwards (R90, R91), and the order of their operand errors (R81). -/

namespace Sys2Proof.Machine

/-! ### Words of a command (R76) -/

theorem execute_of_match {op : Opcode} {c : Cmd} (h : c &&& op.mask = op.pattern) (s : State) :
    execute c s = exec (op.instr c) s :=
  execute_of_decodeCommand ((match_iff_decodeCommand op c).mp h) s

/-! ### Operand checks that fail (R81) -/

/-- A command that checks its coordinates first answers `InvalidCoordinate` when one is out of range. -/
theorem exec_of_coord_gt {i : Instr} {row col : BitVec 4} {rest : Option Status}
    (hi : operandError i = (coordError row col).or rest) (h : 8 < row.toNat ∨ 8 < col.toNat) (s : State) :
    exec i s = .next { s with rsp := some 0x4000#16 } := by
  refine exec_operandError (e := .invalidCoordinate) ?_ s
  rw [hi, coordError_eq, if_pos h, Option.some_or]

/-- With coordinates in range the next check decides. -/
theorem operandError_of_coord_le {i : Instr} {row col : BitVec 4} {rest : Option Status}
    (hi : operandError i = (coordError row col).or rest) (hrow : row.toNat ≤ 8) (hcol : col.toNat ≤ 8) :
    operandError i = rest := by
  rw [hi, coordError_eq, if_neg (by omega), Option.none_or]

theorem setError_of_gt {set : BitVec 16} (h : 0x1FF < set.toNat) : setError set = some .setTooLarge := by
  rw [setError_eq, if_pos h]

theorem digitError_of_gt {digit : BitVec 4} (h : 8 < digit.toNat) : digitError digit = some .invalidDigit := by
  rw [digitError_eq, if_pos h]

/-! ### The field written, bit by bit (R45, R51) -/

theorem bit_writeField {w : Width} (m : Store w) (p : Cell) (v : CandidateSet) (x : Nat) (hx) :
    bit (writeField m p v) x hx =
      if p.offset ≤ x ∧ x < p.offset + 9 then v.getLsbD (x - p.offset) else bit m x hx :=
  bit_memWrite m p.offset 9 v (Cell.inRange p) (Nat.le_refl 9) x hx

theorem getLsbD_fromDigit (d : Digit) {k : Nat} (hk : k < 9) : (fromDigit d).getLsbD k = decide (k = d.val) :=
  (contains_fromDigit d ⟨k, hk⟩).trans (decide_eq_decide.mpr Fin.ext_iff)

theorem readField_writeField_same {w : Width} (m : Store w) (p : Cell) (v : CandidateSet) :
    readField (writeField m p v) p = v := by
  rw [readField_writeField, if_pos rfl]

/-- Writing the singleton of a digit makes that digit's bit the only 1 of the field (R22). -/
theorem bit_writeField_fromDigit {w : Width} (m : Store w) (p : Cell) (d : Digit) (x : Nat) (hx) :
    bit (writeField m p (fromDigit d)) x hx =
      if p.offset ≤ x ∧ x < p.offset + 9 then decide (x = p.offset + d.val) else bit m x hx := by
  rw [bit_writeField]
  refine ite_congr rfl (fun ⟨hge, hlt⟩ => ?_) fun _ => rfl
  rw [getLsbD_fromDigit d (by omega), decide_eq_decide]
  omega

theorem setWidth_fromDigit (d : Digit) : (fromDigit d).setWidth 16 = 1#16 <<< d.val := by revert d; decide

/-- `1 << digit` in the 16 bits of `IMM` is the number of the digit's singleton set (R22, R91). -/
theorem toNat_one_shiftLeft (d : Digit) : (1#16 <<< d.val).toNat = (fromDigit d).toNat := by
  rw [← setWidth_fromDigit, toNat_setWidth_sixteen]

theorem responseWord_digitData (d : Digit) : responseWord .ok (digitData d) = BitVec.ofNat 16 d.val := by
  revert d; decide

/-! ### What the commands answer on a cell's coordinates -/

section
variable {row col : BitVec 4} {p : Cell} (hrow : row.toNat = p.row.val) (hcol : col.toNat = p.col.val)
include hrow hcol

theorem exec_setc {set : BitVec 16} {v : CandidateSet} (hset : set.toNat = v.toNat) (s : State) :
    exec (.setc row col set) s = .next { s with mem := writeField s.mem p v, rsp := some 0x0000#16 } :=
  execSetc_ok hrow hcol hset s

theorem exec_setd {digit : BitVec 4} {d : Digit} (hdigit : digit.toNat = d.val) (s : State) :
    exec (.setd row col digit) s =
      .next { s with mem := writeField s.mem p (fromDigit d), rsp := some 0x0000#16 } :=
  execSetd_ok hrow hcol hdigit s

theorem exec_getc (s : State) :
    exec (.getc row col) s = .next { s with rsp := some ((s.cand p).setWidth 16) } := by
  rw [← responseWord_ok]
  exact execGetc_ok hrow hcol s

theorem exec_getd_of_singleton {s : State} {d : Digit} (h : s.cand p = fromDigit d) :
    exec (.getd row col) s = .next { s with rsp := some (BitVec.ofNat 16 d.val) } := by
  rw [← responseWord_digitData]
  calc exec (.getd row col) s = checked (toDigit (s.cand p)) s fun d => respond .ok (digitData d) s :=
        execGetd_ok hrow hcol s
    _ = respond .ok (digitData d) s := by rw [h, toDigit_fromDigit, checked]

end

/-- A GETC of a cell whose field was just written answers the set (R56). -/
theorem exec_getc_of_writeField {row col : BitVec 4} {p : Cell} (hrow : row.toNat = p.row.val)
    (hcol : col.toNat = p.col.val) (s : State) (v : CandidateSet) (rsp : Option Rsp) :
    exec (.getc row col) { s with mem := writeField s.mem p v, rsp := rsp } =
      .next { s with mem := writeField s.mem p v, rsp := some (v.setWidth 16) } := by
  have hcand : State.cand { s with mem := writeField s.mem p v, rsp := rsp } p = v :=
    readField_writeField_same s.mem p v
  rw [exec_getc hrow hcol, hcand]

/-! ### SETC (R90) and SETD (R91) -/

/-- Settles O15: the new store is the field write, read bit by bit and cell by cell; on invalid operands the first
failing check of R81 answers. -/
theorem setcWritesTheSet : Obligations.SetcWritesTheSet := by
  refine ⟨fun c s h => execute_of_match (op := .setc) h s, fun s row col set p v hrow hcol hset => ?_,
    fun s row col set hcoord => exec_of_coord_gt rfl hcoord s,
    fun s row col set hrow hcol hset =>
      exec_operandError ((operandError_of_coord_le rfl hrow hcol).trans (setError_of_gt hset)) s,
    fun c s hop hzero => ?_⟩
  · exact ⟨writeField s.mem p v, exec_setc hrow hcol hset s, bit_writeField s.mem p v,
      fun q => readField_writeField s.mem p q v, exec_getc_of_writeField hrow hcol s v _⟩
  · have hcode : opField c = Opcode.setc.code := BitVec.eq_of_toNat_eq hop
    exact execute_of_field_ne_zero hcode rfl hzero s

/-- Settles O16: SETD writes the set that SETC writes for `1 << digit`, the digit's singleton, of which GETD gives the
digit back. -/
theorem setdWritesTheSingleton : Obligations.SetdWritesTheSingleton := by
  refine ⟨fun c s h => execute_of_match (op := .setd) h s, fun s row col digit p d hrow hcol hdigit => ?_,
    fun s row col digit hcoord => exec_of_coord_gt rfl hcoord s,
    fun s row col digit hrow hcol hdigit =>
      exec_operandError ((operandError_of_coord_le rfl hrow hcol).trans (digitError_of_gt hdigit)) s,
    fun c s hop hzero => ?_⟩
  · refine ⟨writeField s.mem p (fromDigit d), exec_setd hrow hcol hdigit s, bit_writeField_fromDigit s.mem p d,
      fun q => readField_writeField s.mem p q (fromDigit d), exec_setc hrow hcol (toNat_one_shiftLeft d) s, ?_,
      exec_getd_of_singleton hrow hcol (readField_writeField_same s.mem p (fromDigit d))⟩
    rw [← setWidth_fromDigit]
    exact exec_getc_of_writeField hrow hcol s (fromDigit d) _
  · have hcode : opField c = Opcode.setd.code := BitVec.eq_of_toNat_eq hop
    exact execute_of_field_ne_zero hcode rfl hzero s

end Sys2Proof.Machine
end

section
/-! PROOFS of the statements on field reads (42_field_read.md): what GETC and GETD answer (R92, R93). -/

namespace Sys2Proof.Machine

/-! ### Sets with exactly one member (R26) -/

/-- The one member that `count` finds among the nine digits is the set's only bit (R25). -/
theorem exists_eq_fromDigit_of_count {v : CandidateSet} (h : count v = 1) : ∃ d : Digit, v = fromDigit d := by
  obtain ⟨d, hd⟩ : ∃ d, nine.filter (contains v) = [d] := List.length_eq_one_iff.mp h
  refine ⟨d, candidateSet_ext fun e => ?_⟩
  have hmem : e ∈ nine.filter (contains v) ↔ contains v e = true :=
    List.mem_filter.trans (and_iff_right (mem_nine e))
  rw [hd, List.mem_singleton] at hmem
  rw [contains_fromDigit, Bool.eq_iff_iff, ← hmem, decide_eq_true_iff]

theorem toDigit_of_ne_fromDigit {v : CandidateSet} (h : ∀ d : Digit, v ≠ fromDigit d) :
    toDigit v = .error .ambiguousCandidates :=
  toDigit_of_count_ne_one fun hcount =>
    have ⟨d, hd⟩ := exists_eq_fromDigit_of_count hcount
    h d hd

/-! ### What the reads answer on a cell's coordinates -/

theorem exec_getd_of_no_singleton {row col : BitVec 4} {p : Cell} (hrow : row.toNat = p.row.val)
    (hcol : col.toNat = p.col.val) {s : State} (h : ∀ d : Digit, s.cand p ≠ fromDigit d) :
    exec (.getd row col) s = .next { s with rsp := some 0x1000#16 } := by
  calc exec (.getd row col) s = checked (toDigit (s.cand p)) s fun d => respond .ok (digitData d) s :=
        execGetd_ok hrow hcol s
    _ = raise .ambiguousCandidates s := by rw [toDigit_of_ne_fromDigit h, checked]

theorem cand_of_mem_eq_freshStore {s : State} (h : s.mem = freshStore s.width) (p : Cell) :
    s.cand p = Config.any := by
  rw [State.cand, h, readField_freshStore]

/-- With `M` all ones GETC answers `ANY` for every cell (R43, R92). -/
theorem exec_getc_of_freshStore {row col : BitVec 4} (hrow : row.toNat ≤ 8) (hcol : col.toNat ≤ 8) {s : State}
    (h : s.mem = freshStore s.width) : exec (.getc row col) s = .next { s with rsp := some 0x01FF#16 } := by
  obtain ⟨p, hrow, hcol⟩ := exists_cell hrow hcol
  rw [exec_getc hrow hcol, cand_of_mem_eq_freshStore h]
  rfl

/-! ### GETC (R92) and GETD (R93) -/

/-- Settles O17: the set answered is the field of the cell, read bit by bit. -/
theorem getcReadsTheSet : Obligations.GetcReadsTheSet := by
  refine ⟨fun c s h => execute_of_match (op := .getc) h s,
    fun s row col p hrow hcol => ⟨s.cand p, exec_getc hrow hcol s, contains_readField s.mem p⟩,
    fun s row col hrow hcol hmem => exec_getc_of_freshStore hrow hcol hmem,
    fun s row col hcoord => exec_of_coord_gt Option.or_none.symm hcoord s, fun c s hop hzero => ?_⟩
  have hcode : opField c = Opcode.getc.code := BitVec.eq_of_toNat_eq hop
  exact execute_of_field_ne_zero hcode rfl hzero s

/-- Settles O18: a set of exactly one digit is that digit's singleton, so GETD is ambiguous on every set that is no
singleton. -/
theorem getdReadsTheDigit : Obligations.GetdReadsTheDigit := by
  refine ⟨fun c s h => execute_of_match (op := .getd) h s,
    fun s row col p d hrow hcol hcand => exec_getd_of_singleton hrow hcol hcand,
    fun s row col p hrow hcol hcand => exec_getd_of_no_singleton hrow hcol hcand,
    fun s row col hcoord => exec_of_coord_gt Option.or_none.symm hcoord s, fun c s hop hzero => ?_⟩
  have hcode : opField c = Opcode.getd.code := BitVec.eq_of_toNat_eq hop
  exact execute_of_field_ne_zero hcode rfl hzero s

end Sys2Proof.Machine
end

section
/-! PROOFS of the statements on the propagator (43_commit.md): what COMMIT leaves in each cell (R94), that the order of
its clears is immaterial (R96), that a clear is a guarded XOR (R98), and when two commits commute (R99). -/

namespace Sys2Proof.Machine

variable {w : Width}

/-! ### Sets without a digit, and the XOR with a digit's singleton (R24, R98) -/

theorem without_fromDigit_self (d : Digit) : without (fromDigit d) d = 0#9 := by revert d; decide

theorem without_fromDigit_of_ne {d e : Digit} (h : d ≠ e) : without (fromDigit d) e = fromDigit d := by
  revert d e; decide

theorem without_comm (s : CandidateSet) (d e : Digit) : without (without s d) e = without (without s e) d := by
  simp only [without, BitVec.and_assoc, BitVec.and_comm (~~~fromDigit d)]

theorem without_of_not_contains {s : CandidateSet} {d : Digit} (h : contains s d = false) : without s d = s := by
  refine candidateSet_ext fun e => ?_
  rw [contains_without]
  by_cases he : e = d
  · rw [he, h, Bool.false_and]
  · rw [decide_eq_true he, Bool.and_true]

theorem contains_symmetricDifference_fromDigit (s : CandidateSet) (d e : Digit) :
    contains (symmetricDifference s (fromDigit d)) e = (contains s e ^^ decide (e = d)) := by
  rw [← contains_fromDigit]
  exact BitVec.getLsbD_xor

/-- The clear of a digit that is present is the XOR with its singleton (R98). -/
theorem without_of_contains {s : CandidateSet} {d : Digit} (h : contains s d = true) :
    without s d = symmetricDifference s (fromDigit d) := by
  refine candidateSet_ext fun e => ?_
  rw [contains_without, contains_symmetricDifference_fromDigit]
  by_cases he : e = d
  · simp [he, h]
  · simp [he]

theorem without_eq_guarded_xor (s : CandidateSet) (d : Digit) :
    without s d = if contains s d then symmetricDifference s (fromDigit d) else s := by
  split
  next h => exact without_of_contains h
  next h => exact without_of_not_contains (Bool.eq_false_iff.mpr h)

/-! ### What COMMIT leaves in each cell (R94) -/

theorem isPeer_iff (p q : Cell) :
    isPeer p q = true ↔ q ≠ p ∧ (q.row = p.row ∨ q.col = p.col ∨ q.block = p.block) := decide_eq_true_iff

theorem ne_of_isPeer {p q : Cell} (h : isPeer p q = true) : q ≠ p := ((isPeer_iff p q).mp h).1

theorem readField_commitStore_same (m : Store w) (p : Cell) (d : Digit) :
    readField (commitStore m p d) p = fromDigit d := by
  rw [readField_commitStore, if_pos rfl]

theorem readField_commitStore_peer (m : Store w) {p q : Cell} (d : Digit) (h : isPeer p q = true) :
    readField (commitStore m p d) q = without (readField m q) d := by
  rw [readField_commitStore, if_neg (ne_of_isPeer h), if_pos h]

theorem readField_commitStore_other (m : Store w) {p q : Cell} (d : Digit) (hne : q ≠ p) (h : isPeer p q = false) :
    readField (commitStore m p d) q = readField m q := by
  rw [readField_commitStore, if_neg hne, if_neg (Bool.eq_false_iff.mp h)]

theorem exec_commit {row col digit : BitVec 4} {p : Cell} {d : Digit} (hrow : row.toNat = p.row.val)
    (hcol : col.toNat = p.col.val) (hdigit : digit.toNat = d.val) (s : State) :
    exec (.commit row col digit) s = .next { s with mem := commitStore s.mem p d, rsp := some 0x0000#16 } :=
  execCommit_ok hrow hcol hdigit s

theorem exec_commitInstr (p : Cell) (d : Digit) (s : State) :
    exec (commitInstr p d) s = .next { s with mem := commitStore s.mem p d, rsp := some 0x0000#16 } :=
  exec_commit (toNat_field4 _) (toNat_field4 _) (toNat_field4 _) s

/-- Settles O19: the new store is the committed one, read cell by cell; on invalid operands the first failing check of
R81 answers. -/
theorem commitEliminatesAndWrites : Obligations.CommitEliminatesAndWrites := by
  refine ⟨fun c s h => execute_of_match (op := .commit) h s, fun s row col digit p d hrow hcol hdigit => ?_,
    fun s row col digit hcoord => exec_of_coord_gt rfl hcoord s,
    fun s row col digit hrow hcol hdigit =>
      exec_operandError ((operandError_of_coord_le rfl hrow hcol).trans (digitError_of_gt hdigit)) s,
    fun c s hop hzero => ?_⟩
  · refine ⟨commitStore s.mem p d, exec_commit hrow hcol hdigit s, readField_commitStore_same s.mem p d,
      fun q hne hshares => readField_commitStore_peer s.mem d ((isPeer_iff p q).mpr ⟨hne, hshares⟩),
      fun x hxrow hxcol hxblock => ?_, bit_commitStore_padding s.mem p d⟩
    have hne : x ≠ p := fun h => hxrow (congrArg Cell.row h)
    have hnot : ¬ isPeer p x = true := by simp [isPeer_iff, hxrow, hxcol, hxblock]
    exact readField_commitStore_other s.mem d hne (Bool.eq_false_iff.mpr hnot)
  · have hcode : opField c = Opcode.commit.code := BitVec.eq_of_toNat_eq hop
    exact execute_of_field_ne_zero hcode rfl hzero s

/-! ### The order of the clears (R95, R96) -/

theorem not_mem_peers_self (p : Cell) : p ∉ peers p := fun h => ((mem_peers_iff p p).mp h).2 rfl

theorem nodup_bitOf_peers (p : Cell) (d : Digit) : ((peers p).map fun q => (q.bitOf d).val).Nodup :=
  (nodup_peers p).map fun _ _ h => (bitOf_inj.mp h).1

/-- The walk of a cell's row, column and block, which meets some cells more than once (R95). -/
abbrev groupWalk (p : Cell) : List Cell := rowGroup p ++ colGroup p ++ blockGroup p

theorem length_filter_groupWalk (p : Cell) : ((groupWalk p).filter (· ≠ p)).length = 24 := by
  have hblock : ((blockGroup p).filter (· ≠ p)).length = 8 :=
    length_filter_ne (nodup_blockGroup p) ((mem_blockGroup p p).mpr rfl)
  simp only [groupWalk, List.filter_append, List.length_append, length_rowPeers, length_colPeers, hblock]

theorem mem_groupWalk_iff {p q : Cell} (h : q ≠ p) : q ∈ groupWalk p ↔ q ∈ peers p := by
  rw [mem_peers_iff, List.mem_append, List.mem_append, or_assoc, and_iff_left h]

/-- Two stores with the padding of a third are equal when they hold the same candidate sets (R32, R33). -/
theorem store_eq_of_fields_of_padding {m m₁ m₂ : Store w} (h₁ : ∀ x hx, 729 ≤ x → bit m₁ x hx = bit m x hx)
    (h₂ : ∀ x hx, 729 ≤ x → bit m₂ x hx = bit m x hx) (h : ∀ p, readField m₁ p = readField m₂ p) : m₁ = m₂ :=
  store_eq_of_fields h fun _ => (h₁ _ _ (Nat.le_add_right _ _)).trans (h₂ _ _ (Nat.le_add_right _ _)).symm

/-- Clearing in any list that holds all peers, then writing the target, is COMMIT: the final write replaces whatever was
done to the target (R96). -/
theorem writeField_eliminate_eq_commitStore (m : Store w) {p : Cell} (d : Digit) {qs : List Cell}
    (h : ∀ q, q ≠ p → (q ∈ qs ↔ q ∈ peers p)) :
    writeField (eliminate m d qs) p (fromDigit d) = commitStore m p d := by
  refine store_eq_of_fields_of_padding (m := m) (fun x hx hpad => ?_) (bit_commitStore_padding m p d) fun q => ?_
  · rw [bit_writeField_padding _ _ _ _ _ hpad, bit_eliminate_padding _ _ _ _ _ hpad]
  · by_cases hq : q = p
    · rw [hq, readField_writeField_same, readField_commitStore_same]
    · simp only [readField_writeField, readField_commitStore, readField_eliminate, if_neg hq, h q hq, mem_peers]

theorem readField_eliminate_writeField_fromDigit (m : Store w) {p : Cell} (d : Digit) {qs : List Cell} (h : p ∈ qs) :
    readField (eliminate (writeField m p (fromDigit d)) d qs) p = 0#9 := by
  rw [readField_eliminate, if_pos h, readField_writeField_same, without_fromDigit_self]

/-- Settles O31: the peers are distinct cells, the walk meets each of them, and the final write makes the target's own
clears immaterial. -/
theorem commitOrderIsImmaterial : Obligations.CommitOrderIsImmaterial := fun p d =>
  ⟨nodup_bitOf_peers p d, length_peers p, not_mem_peers_self p,
    ⟨rfl, length_filter_groupWalk p, fun _ => mem_groupWalk_iff⟩,
    fun _ m _ hqs => ⟨writeField_eliminate_eq_commitStore m d hqs, readField_eliminate_writeField_fromDigit m d⟩⟩

/-! ### The clear as a guarded XOR (R98) -/

/-- Settles O32: a peer keeps its set without the digit, which is the XOR only under the membership test. -/
theorem clearIsAGuardedXor : Obligations.ClearIsAGuardedXor := by
  intro s p q d hpeer
  have hfield := readField_commitStore_peer s.mem d hpeer
  refine ⟨commitStore s.mem p d, exec_commitInstr p d s, hfield, hfield.trans (without_eq_guarded_xor _ d),
    fun habsent => ⟨?_, hfield.trans (without_of_not_contains habsent)⟩⟩
  simp [contains_symmetricDifference_fromDigit, habsent]

/-! ### Two commits (R99) -/

/-- What a cell was committed to stays unless a peer is committed to the same digit. -/
theorem readField_commitStore_commitStore_first (m : Store w) {p q : Cell} {d e : Digit} (hne : p ≠ q)
    (h : ¬ (isPeer p q = true ∧ d = e)) : readField (commitStore (commitStore m p d) q e) p = fromDigit d := by
  by_cases hpeer : isPeer q p = true
  · have hde : d ≠ e := fun hde => h ⟨isPeer_symm p q ▸ hpeer, hde⟩
    rw [readField_commitStore_peer _ _ hpeer, readField_commitStore_same, without_fromDigit_of_ne hde]
  · rw [readField_commitStore_other _ _ hne (Bool.eq_false_iff.mpr hpeer), readField_commitStore_same]

/-- Of two peers committed to the same digit the first is left empty. -/
theorem readField_commitStore_commitStore_peer (m : Store w) {p q : Cell} (d : Digit) (h : isPeer p q = true) :
    readField (commitStore (commitStore m p d) q d) p = 0#9 := by
  rw [readField_commitStore_peer _ _ (isPeer_symm p q ▸ h), readField_commitStore_same, without_fromDigit_self]

theorem commitStore_comm (m : Store w) {p q : Cell} {d e : Digit} (hne : p ≠ q)
    (h : ¬ (isPeer p q = true ∧ d = e)) :
    commitStore (commitStore m p d) q e = commitStore (commitStore m q e) p d := by
  have hpadding (p q : Cell) (d e : Digit) (x : Nat) (hx) (hpad : 729 ≤ x) :
      bit (commitStore (commitStore m p d) q e) x hx = bit m x hx := by
    rw [bit_commitStore_padding _ _ _ _ _ hpad, bit_commitStore_padding _ _ _ _ _ hpad]
  refine store_eq_of_fields_of_padding (hpadding p q d e) (hpadding q p e d) fun x => ?_
  by_cases hp : x = p
  · rw [hp, readField_commitStore_commitStore_first m hne h, readField_commitStore_same]
  by_cases hq : x = q
  · have hswap : ¬ (isPeer q p = true ∧ e = d) := fun ⟨hpeer, hde⟩ => h ⟨isPeer_symm p q ▸ hpeer, hde.symm⟩
    rw [hq, readField_commitStore_commitStore_first m hne.symm hswap, readField_commitStore_same]
  · simp only [readField_commitStore, if_neg hp, if_neg hq]
    cases isPeer p x <;> cases isPeer q x <;> simp [without_comm _ d e]

/-! ### Lists of commits (R99) -/

/-- The store that a list of commits leaves, in the list's order. -/
def commitAll (m : Store w) (ps : List (Cell × Digit)) : Store w := ps.foldl (fun m pd => commitStore m pd.1 pd.2) m

/-- Different cells, and no digit repeated among peers. -/
abbrev Compatible (a b : Cell × Digit) : Prop := a.1 ≠ b.1 ∧ ¬ (isPeer a.1 b.1 = true ∧ a.2 = b.2)

/-- The two commits leave the same store in either order. -/
abbrev CommitsCommute (w : Width) (a b : Cell × Digit) : Prop :=
  ∀ m : Store w, commitStore (commitStore m a.1 a.2) b.1 b.2 = commitStore (commitStore m b.1 b.2) a.1 a.2

/-- Any two commits of the list commute, so the list may be permuted. -/
theorem commitAll_perm (m : Store w) {ps qs : List (Cell × Digit)} (hperm : ps.Perm qs) (h : ps.Pairwise Compatible) :
    commitAll m ps = commitAll m qs := by
  have hpairwise : ps.Pairwise (CommitsCommute w) := h.imp fun ⟨hne, hdigit⟩ m => commitStore_comm m hne hdigit
  have hsymm : Std.Symm (CommitsCommute w) := ⟨fun _ _ hab m => (hab m).symm⟩
  have hcomm := hpairwise.forall_of_forall fun _ _ _ => rfl
  exact hperm.foldl_eq' (fun _ ha _ hb m => hcomm ha hb m) m

/-- The words of a list of commits. -/
abbrev commitWords (ps : List (Cell × Digit)) : List Cmd := ps.map fun pd => commitWord pd.1 pd.2

/-- The state that a list of commits leaves when each response is taken: every commit answers `OK` (R100). -/
def State.afterCommits (s : State) (ps : List (Cell × Digit)) : State :=
  { s with mem := commitAll s.mem ps, accepted := s.accepted ++ commitWords ps,
           taken := s.taken ++ List.replicate ps.length 0x0000#16 }

theorem issue_commitWord {s : State} (hrsp : s.rsp = none) (p : Cell) (d : Digit) :
    issue (commitWord p d) s = .next (s.afterCommits [(p, d)]) := by
  have haccept : accept (commitWord p d) s =
      .next { s.recordAccepted (commitWord p d) with mem := commitStore s.mem p d, rsp := some 0x0000#16 } := by
    rw [accept, commitWord, execute_of_decodeCommand (decodeCommand_encode _), exec_commitInstr]
    rfl
  rcases s with ⟨width, mem, rsp, inputs, accepted, taken⟩
  cases hrsp
  simp only [issue, State.takeResponse, haccept]
  rfl

theorem State.afterCommits_cons (s : State) (pd : Cell × Digit) (ps : List (Cell × Digit)) :
    (s.afterCommits [pd]).afterCommits ps = s.afterCommits (pd :: ps) := by
  simp [State.afterCommits, commitAll, List.replicate_succ]

theorem issueAll_commitWords {s : State} (hrsp : s.rsp = none) (ps : List (Cell × Digit)) :
    issueAll (commitWords ps) s = .next (s.afterCommits ps) := by
  induction ps generalizing s with
  | nil => simp [issueAll, State.afterCommits, commitAll]
  | cons pd ps ih =>
    simp only [List.map_cons, issueAll, issue_commitWord hrsp]
    exact (ih (s := s.afterCommits [pd]) hrsp).trans (congrArg _ (s.afterCommits_cons pd ps))

/-- A waiting response may be taken before the first word of a list is issued (R86). -/
theorem issueAll_takeResponse {cs : List Cmd} (h : cs ≠ []) (s : State) :
    issueAll cs s.takeResponse = issueAll cs s := by
  cases cs with
  | nil => exact absurd rfl h
  | cons c cs => simp only [issueAll, issue, State.takeResponse_of_none s.takeResponse_rsp]

theorem State.afterCommits_perm (s : State) {ps qs : List (Cell × Digit)} (hperm : ps.Perm qs)
    (h : ps.Pairwise Compatible) :
    s.afterCommits qs = { s.afterCommits ps with accepted := s.accepted ++ commitWords qs } := by
  simp only [State.afterCommits, commitAll_perm s.mem hperm h, hperm.length_eq]

theorem issueAll_commitWords_perm (s : State) {ps qs : List (Cell × Digit)} (hperm : ps.Perm qs)
    (h : ps.Pairwise Compatible) :
    ∃ t, issueAll (commitWords ps) s = .next t ∧
      issueAll (commitWords qs) s = .next { t with accepted := s.accepted ++ commitWords qs } := by
  by_cases hnil : ps = []
  · subst hnil
    obtain rfl := hperm.nil_eq
    exact ⟨s, rfl, by simp [issueAll]⟩
  · have hrun (rs : List (Cell × Digit)) (hrs : rs ≠ []) :
        issueAll (commitWords rs) s = .next (s.takeResponse.afterCommits rs) := by
      rw [← issueAll_takeResponse (by simpa using hrs), issueAll_commitWords s.takeResponse_rsp]
    refine ⟨_, hrun ps hnil, ?_⟩
    rw [hrun qs fun hqs => hnil (hperm.trans (hqs ▸ .refl _)).eq_nil, State.afterCommits_perm _ hperm h,
      State.takeResponse_accepted]

/-- Settles O33: the store is the committed one throughout; two commits commute cell by cell, and a list of them by its
pairs. -/
theorem commitProperties : Obligations.CommitProperties := by
  refine ⟨fun s ps qs hperm h => issueAll_commitWords_perm s hperm h, fun s p d => ?_⟩
  refine ⟨commitStore s.mem p d, exec_commitInstr p d s, readField_commitStore_same s.mem p d, fun q hpeer => ?_, ?_,
    fun q hne hpeer => readField_commitStore_other s.mem d hne hpeer, fun q e hpeer hne => ?_, fun q e => ?_⟩
  · simp [readField_commitStore_peer s.mem d hpeer, contains_without]
  · rw [exec_commitInstr, commitStore_commitStore]
  · simp [readField_commitStore_peer s.mem d hpeer, contains_without, hne]
  · refine ⟨commitStore s.mem q e, commitStore (commitStore s.mem p d) q e, commitStore (commitStore s.mem q e) p d,
      exec_commitInstr q e _, exec_commitInstr q e s, exec_commitInstr p d _, commitStore_comm s.mem, ?_, ?_⟩
    · rintro hpeer rfl
      exact ⟨readField_commitStore_commitStore_peer s.mem d hpeer, readField_commitStore_same _ q d,
        readField_commitStore_commitStore_peer s.mem d (isPeer_symm p q ▸ hpeer), readField_commitStore_same _ p d⟩
    · rintro rfl
      exact ⟨readField_commitStore_same _ p e, readField_commitStore_same _ p d⟩

end Sys2Proof.Machine
end

section
/-! PROOFS of the statements on single-bit primitives (44_bit_primitives.md): what CLRBIT and SETBIT write (R101, R102),
and how they, SETC and COMMIT make up one another (R103). -/

namespace Sys2Proof.Machine

variable {w : Width}

/-! ### Bit indices, cells and digits (R103) -/

theorem index_cell (g : BitIndex) : g.cell.index = g.val / 9 := index_ofIndex _

theorem row_cell (g : BitIndex) : g.cell.row.val = g.val / 81 := Nat.div_div_eq_div_mul _ 9 9

theorem col_cell (g : BitIndex) : g.cell.col.val = g.cell.index % 9 := by
  rw [index_cell]
  rfl

theorem eq_bitOf_of_index {g : BitIndex} {p : Cell} {d : Digit} (hp : p.index = g.val / 9) (hd : d.val = g.val % 9) :
    g = p.bitOf d := by
  refine Fin.ext ?_
  simp only [Cell.bitOf, offset_eq]
  omega

theorem toNat_ofNat_bitOf (p : Cell) (d : Digit) : (BitVec.ofNat 16 (p.offset + d.val)).toNat = (p.bitOf d).val :=
  Nat.mod_eq_of_lt ((p.bitOf d).isLt.trans (by decide))

/-! ### One bit written, bit by bit and as a field write (R49, R103) -/

theorem bit_clearIndex (m : Store w) (g : BitIndex) (x : Nat) (hx) :
    bit (clearIndex m g) x hx = if x = g.val then false else bit m x hx :=
  bit_bitClear m g.val _ x hx

theorem bit_setIndex (m : Store w) (g : BitIndex) (x : Nat) (hx) :
    bit (setIndex m g) x hx = if x = g.val then true else bit m x hx :=
  bit_bitSet m g.val _ x hx

theorem readField_clearIndex_same (m : Store w) (p : Cell) (d : Digit) :
    readField (clearIndex m (p.bitOf d)) p = without (readField m p) d := by
  rw [readField_clearIndex, if_pos rfl]

theorem readField_setIndex_same (m : Store w) (p : Cell) (d : Digit) :
    readField (setIndex m (p.bitOf d)) p = union (readField m p) (fromDigit d) := by
  rw [readField_setIndex, if_pos rfl]

/-- A write that leaves the padding and the other cells as they are is the field write of what it leaves in its cell. -/
theorem eq_writeField_readField {m m' : Store w} (p : Cell) (hpad : ∀ x hx, 729 ≤ x → bit m' x hx = bit m x hx)
    (hother : ∀ q, q ≠ p → readField m' q = readField m q) : m' = writeField m p (readField m' p) := by
  refine store_eq_of_fields_of_padding hpad (bit_writeField_padding m p _) fun q => ?_
  by_cases hq : q = p
  · rw [hq, readField_writeField_same]
  · rw [readField_writeField, if_neg hq, hother q hq]

theorem clearIndex_eq_writeField (m : Store w) (p : Cell) (d : Digit) :
    clearIndex m (p.bitOf d) = writeField m p (without (readField m p) d) := by
  rw [← readField_clearIndex_same]
  exact eq_writeField_readField p (bit_clearIndex_padding m _) fun q hq => by rw [readField_clearIndex, if_neg hq]

theorem setIndex_eq_writeField (m : Store w) (p : Cell) (d : Digit) :
    setIndex m (p.bitOf d) = writeField m p (union (readField m p) (fromDigit d)) := by
  rw [← readField_setIndex_same]
  exact eq_writeField_readField p (bit_setIndex_padding m _) fun q hq => by rw [readField_setIndex, if_neg hq]

/-! ### What the commands answer on an index -/

theorem exec_clrbit {index : BitVec 16} {g : BitIndex} (hindex : index.toNat = g.val) (s : State) :
    exec (.clrbit index) s = .next { s with mem := clearIndex s.mem g, rsp := some 0x0000#16 } :=
  execClrbit_ok hindex s

theorem exec_setbit {index : BitVec 16} {g : BitIndex} (hindex : index.toNat = g.val) (s : State) :
    exec (.setbit index) s = .next { s with mem := setIndex s.mem g, rsp := some 0x0000#16 } :=
  execSetbit_ok hindex s

theorem exec_of_index_gt {i : Instr} {index : BitVec 16} (hi : operandError i = indexError index)
    (h : 728 < index.toNat) (s : State) : exec i s = .next { s with rsp := some 0x5000#16 } := by
  refine exec_operandError (e := .bitIndexOutOfRange) ?_ s
  rw [hi, indexError_eq, if_pos h]

theorem exists_bitIndex {index : BitVec 16} (h : index.toNat ≤ 728) : ∃ g : BitIndex, index.toNat = g.val :=
  (index_cases index).resolve_right h.not_gt

/-! ### CLRBIT (R101) and SETBIT (R102) -/

/-- Settles O20: the new store is the one with the bit cleared, read bit by bit, and by cell since the index is the
cell's bit for the digit. -/
theorem clrbitClearsOneBit : Obligations.ClrbitClearsOneBit := by
  refine ⟨fun c s h => execute_of_match (op := .clrbit) h s, fun s index hle => ?_,
    fun s index hgt => exec_of_index_gt rfl hgt s, fun c s hop hzero => ?_⟩
  · obtain ⟨g, hg⟩ := exists_bitIndex hle
    simp only [hg]
    refine ⟨clearIndex s.mem g, exec_clrbit hg s, bit_clearIndex s.mem g, fun p d hp hd => ?_⟩
    rw [eq_bitOf_of_index hp hd]
    exact readField_clearIndex_same s.mem p d
  · have hcode : opField c = Opcode.clrbit.code := BitVec.eq_of_toNat_eq hop
    exact execute_of_field_ne_zero hcode rfl hzero s

/-- Settles O21: the new store is the one with the bit set, read bit by bit and by cell as for CLRBIT. -/
theorem setbitSetsOneBit : Obligations.SetbitSetsOneBit := by
  refine ⟨fun c s h => execute_of_match (op := .setbit) h s, fun s index hle => ?_,
    fun s index hgt => exec_of_index_gt rfl hgt s, fun c s hop hzero => ?_⟩
  · obtain ⟨g, hg⟩ := exists_bitIndex hle
    simp only [hg]
    refine ⟨setIndex s.mem g, exec_setbit hg s, bit_setIndex s.mem g, fun p d hp hd => ?_⟩
    rw [eq_bitOf_of_index hp hd]
    exact readField_setIndex_same s.mem p d
  · have hcode : opField c = Opcode.setbit.code := BitVec.eq_of_toNat_eq hop
    exact execute_of_field_ne_zero hcode rfl hzero s

/-! ### The CLRBITs of the peers and SETD, issued one after another (R87, R103) -/

/-- The word of the CLRBIT that takes a digit from a cell's set. -/
abbrev clrbitWord (d : Digit) (q : Cell) : Cmd := encode (.clrbit (BitVec.ofNat 16 (q.offset + d.val)))

/-- The word of SETD at a cell. -/
abbrev setdWord (p : Cell) (d : Digit) : Cmd := encode (.setd (field4 p.row) (field4 p.col) (field4 d))

/-- A command issued on an empty response port leaves the store it answers with, its word counted and its response taken
(R87). -/
theorem issue_encode {i : Instr} {s : State} {m : Store s.width} {r : Rsp} (hrsp : s.rsp = none)
    (h : exec i (s.recordAccepted (encode i)) = .next { s.recordAccepted (encode i) with mem := m, rsp := some r }) :
    issue (encode i) s =
      .next { s with mem := m, accepted := s.accepted ++ [encode i], taken := s.taken ++ [r] } := by
  have haccept : accept (encode i) s = .next { s.recordAccepted (encode i) with mem := m, rsp := some r } :=
    (execute_of_decodeCommand (decodeCommand_encode i) _).trans h
  rcases s with ⟨width, mem, rsp, inputs, accepted, taken⟩
  cases hrsp
  simp only [issue, State.takeResponse, haccept]
  rfl

theorem issueAll_clrbitWords {s : State} (hrsp : s.rsp = none) (d : Digit) (qs : List Cell) :
    ∃ (accepted : List Cmd) (taken : List Rsp), issueAll (qs.map (clrbitWord d)) s =
      .next { s with mem := eliminate s.mem d qs, accepted := accepted, taken := taken } := by
  induction qs generalizing s with
  | nil => exact ⟨s.accepted, s.taken, rfl⟩
  | cons q qs ih =>
    have hissue := issue_encode hrsp (exec_clrbit (toNat_ofNat_bitOf q d) _)
    simp only [List.map_cons, issueAll, hissue]
    exact ih hrsp

theorem issue_setdWord {s : State} (hrsp : s.rsp = none) (p : Cell) (d : Digit) :
    issue (setdWord p d) s =
      .next { s with mem := writeField s.mem p (fromDigit d), accepted := s.accepted ++ [setdWord p d],
                     taken := s.taken ++ [0x0000#16] } :=
  issue_encode hrsp (exec_setd (toNat_field4 _) (toNat_field4 _) (toNat_field4 _) _)

theorem issueAll_singleton {c : Cmd} {s t : State} (h : issue c s = .next t) : issueAll [c] s = .next t := by
  simp only [issueAll, h]

theorem State.takeResponse_eq (s : State) :
    s.takeResponse = { s with rsp := none, taken := s.taken ++ s.rsp.toList } := by
  rcases s with ⟨width, mem, rsp, inputs, accepted, taken⟩
  cases rsp with
  | none => simp [State.takeResponse]
  | some r => rfl

/-- COMMIT's store is the elimination from the peers and then the field write (R94), so these words reach it. -/
theorem issueAll_clrbitWords_setdWord (s : State) (p : Cell) (d : Digit) :
    ∃ (accepted : List Cmd) (taken : List Rsp), issueAll ((peers p).map (clrbitWord d) ++ [setdWord p d]) s =
      .next { s with mem := commitStore s.mem p d, rsp := none, accepted := accepted, taken := taken } := by
  have hnil : (peers p).map (clrbitWord d) ++ [setdWord p d] ≠ [] := List.append_ne_nil_of_right_ne_nil _ nofun
  obtain ⟨accepted, taken, hclears⟩ :=
    issueAll_clrbitWords (s := { s with rsp := none, taken := s.taken ++ s.rsp.toList }) rfl d (peers p)
  rw [← issueAll_takeResponse hnil, State.takeResponse_eq]
  exact ⟨_, _, (issueAll_append _ _ _ _ hclears).trans (issueAll_singleton (issue_setdWord rfl p d))⟩

/-- Settles O34: a cell's bit written is the field write of its set without or with the digit, and COMMIT's store is
reached by the same operations that the words issued run. -/
theorem bitIndexAndCellCommandsAgree : Obligations.BitIndexAndCellCommandsAgree := by
  refine ⟨fun g => ⟨?_, index_cell g, rfl, row_cell g, col_cell g, (bitOf_cell_digit g).symm⟩, fun s p d => ?_⟩
  · rw [index_cell]
    exact (Nat.div_add_mod g.val 9).symm
  · have hsetc (v : CandidateSet) := exec_setc (toNat_field4 p.row) (toNat_field4 p.col) (toNat_setWidth_sixteen v) s
    obtain ⟨accepted, taken, hissued⟩ := issueAll_clrbitWords_setdWord s p d
    refine ⟨⟨_, exec_clrbit (toNat_ofNat_bitOf p d) s, ?_⟩, ⟨_, exec_setbit (toNat_ofNat_bitOf p d) s, ?_⟩,
      ⟨commitStore s.mem p d, accepted, taken, exec_commitInstr p d s, hissued⟩⟩
    · rw [clearIndex_eq_writeField]
      exact hsetc _
    · rw [setIndex_eq_writeField]
      exact hsetc _

end Sys2Proof.Machine
end

section
/-! PROOFS of the statements on SOLVE (45_host_sequences.md): the commands it issues (R104, R107), the store its input
pass leaves, and the grid read back from it (R108 to R110). -/

namespace Sys2Proof.Machine

variable {w : Width} {grid : Grid}

/-! ### Characters and digits (R105) -/

theorem ofChar_eq_ok_iff (ch : Char) (d : Digit) : Digit.ofChar ch = .ok d ↔ ch.toNat = 0x31 + d.val := by
  have hd := d.isLt
  by_cases h : 0x31 ≤ ch.toNat ∧ ch.toNat ≤ 0x39
  · rw [Digit.ofChar, dif_pos h, Except.ok.injEq, Fin.ext_iff]
    show ch.toNat - 0x31 = d.val ↔ _
    omega
  · rw [Digit.ofChar, dif_neg h]
    exact iff_of_false nofun (by omega)

theorem exists_digit_of_char {ch : Char} (hge : 0x31 ≤ ch.toNat) (hle : ch.toNat ≤ 0x39) :
    ∃ d : Digit, ch.toNat = 0x31 + d.val :=
  ⟨⟨ch.toNat - 0x31, by omega⟩, (Nat.add_sub_of_le hge).symm⟩

theorem toNat_toChar (d : Digit) : (Digit.toChar d).toNat = 0x31 + d.val := by revert d; decide

theorem toChar_eq_iff (d : Digit) (ch : Char) : Digit.toChar d = ch ↔ ch.toNat = 0x31 + d.val := by
  rw [← Char.toNat_inj, toNat_toChar, eq_comm]

/-! ### The cells in row-major order (R107) -/

theorem map_index_cellsRowMajor : cellsRowMajor.map Cell.index = List.range 81 := by decide

theorem length_cellsRowMajor : cellsRowMajor.length = 81 := by decide

theorem getElem?_cellsRowMajor (p : Cell) : cellsRowMajor[p.index]? = some p := by
  rcases p with ⟨r, c⟩
  revert r c
  decide

theorem mem_cellsRowMajor (p : Cell) : p ∈ cellsRowMajor := List.mem_of_getElem? (getElem?_cellsRowMajor p)

theorem pairwise_index_cellsRowMajor : cellsRowMajor.Pairwise fun p q => p.index < q.index := by
  rw [← List.pairwise_map, map_index_cellsRowMajor]
  exact List.pairwise_lt_range

/-! ### The pre-filled cells (R104, R106) -/

/-- The entry of a cell in the input pass, if its character is a digit's. -/
def prefilledEntry (grid : Grid) (p : Cell) : Option (Cell × Digit) :=
  match Digit.ofChar (grid p) with
  | .ok d    => some (p, d)
  | .error _ => none

theorem prefilled_eq (grid : Grid) : prefilled grid = cellsRowMajor.filterMap (prefilledEntry grid) := rfl

theorem prefilledEntry_eq_some_iff (p : Cell) (qd : Cell × Digit) :
    prefilledEntry grid p = some qd ↔ p = qd.1 ∧ (grid qd.1).toNat = 0x31 + qd.2.val := by
  rcases qd with ⟨q, d⟩
  rw [← ofChar_eq_ok_iff, prefilledEntry]
  constructor
  · intro h
    split at h
    next hok =>
      cases h
      exact ⟨rfl, hok⟩
    next => cases h
  · rintro ⟨rfl, hok⟩
    simp only [hok]

theorem mem_prefilled (qd : Cell × Digit) : qd ∈ prefilled grid ↔ (grid qd.1).toNat = 0x31 + qd.2.val := by
  simp only [prefilled_eq, List.mem_filterMap, prefilledEntry_eq_some_iff, mem_cellsRowMajor, true_and,
    exists_eq_left]

theorem pairwise_index_prefilled (grid : Grid) : (prefilled grid).Pairwise fun a b => a.1.index < b.1.index := by
  rw [prefilled_eq, List.pairwise_filterMap]
  refine pairwise_index_cellsRowMajor.imp fun hlt a ha b hb => ?_
  rw [← ((prefilledEntry_eq_some_iff _ a).mp ha).1, ← ((prefilledEntry_eq_some_iff _ b).mp hb).1]
  exact hlt

theorem map_fst_prefilled (grid : Grid) :
    (prefilled grid).map (·.1) = cellsRowMajor.filter fun p => 0x31 ≤ (grid p).toNat ∧ (grid p).toNat ≤ 0x39 := by
  rw [prefilled_eq, List.map_filterMap, ← List.filterMap_eq_filter]
  refine List.filterMap_congr fun p _ => ?_
  by_cases h : 0x31 ≤ (grid p).toNat ∧ (grid p).toNat ≤ 0x39 <;>
    simp [prefilledEntry, Digit.ofChar, Option.guard, h]

/-- Settles O47: the words are those of the definition, and the pre-filled cells are the cells with a digit's character. -/
theorem solveCommandSequence : Obligations.SolveCommandSequence := by
  refine fun grid => ⟨rfl, map_fst_prefilled grid, fun pd hpd => ?_, map_index_cellsRowMajor, ?_⟩
  · rw [(mem_prefilled pd).mp hpd, Nat.add_sub_cancel_left]
  · simp only [solveCommands, inputPass, outputPass, List.length_cons, List.length_append, List.length_map,
      length_cellsRowMajor]
    omega

/-! ### The store after the input pass (R35, R108) -/

/-- Commits to other cells only remove digits from a cell, exactly those committed to its peers (R35). -/
theorem contains_readField_commitAll (m : Store w) {ps : List (Cell × Digit)} {q : Cell} (hq : ∀ pd ∈ ps, pd.1 ≠ q)
    (e : Digit) :
    contains (readField (commitAll m ps) q) e = true ↔
      contains (readField m q) e = true ∧ ∀ pd ∈ ps, isPeer pd.1 q = true → pd.2 ≠ e := by
  obtain ⟨t, ht, hcand⟩ := commitsOnlyRemoveFromOtherCells ⟨w, m, none, [], [], []⟩ ps q hq
  cases ht.symm.trans (issueAll_commitWords rfl ps)
  exact hcand e

/-- The store that NEW and the input pass leave, whatever the store was before. -/
def inputStore (w : Width) (grid : Grid) : Store w := commitAll (freshStore w) (prefilled grid)

theorem contains_any (d : Digit) : contains Config.any d = true := by revert d; decide

/-- A cell that is not pre-filled keeps the digits that no pre-filled peer has (R109). -/
theorem contains_inputStore_of_not_prefilled {p : Cell} (hp : ¬ (0x31 ≤ (grid p).toNat ∧ (grid p).toNat ≤ 0x39))
    (e : Digit) :
    contains (readField (inputStore w grid) p) e = true ↔
      ¬ ∃ q, isPeer p q = true ∧ (grid q).toNat = 0x31 + e.val := by
  have hother : ∀ pd ∈ prefilled grid, pd.1 ≠ p := by
    rintro ⟨q, d⟩ hmem rfl
    have hchar := (mem_prefilled _).mp hmem
    have hd := d.isLt
    omega
  simp only [inputStore, contains_readField_commitAll _ hother, readField_freshStore, contains_any, true_and,
    mem_prefilled, Prod.forall, not_exists, not_and, isPeer_symm p]
  exact ⟨fun h q hpeer hchar => h q e hchar hpeer rfl, fun h q d hchar hpeer hde => h q hpeer (hde ▸ hchar)⟩

/-- The input pass around a pre-filled cell: what comes after it is the pre-filled cells of higher index. -/
theorem exists_prefilled_split {p : Cell} {d : Digit} (h : (p, d) ∈ prefilled grid) :
    ∃ before after, prefilled grid = before ++ (p, d) :: after ∧
      ∀ qe, qe ∈ after ↔ qe ∈ prefilled grid ∧ p.index < qe.1.index := by
  obtain ⟨before, after, hsplit⟩ := List.append_of_mem h
  refine ⟨before, after, hsplit, fun qe => ?_⟩
  have hsorted := hsplit ▸ pairwise_index_prefilled grid
  obtain ⟨-, hafter, hbefore⟩ := List.pairwise_append.mp hsorted
  rw [List.pairwise_cons] at hafter
  rw [hsplit, List.mem_append, List.mem_cons]
  constructor
  · exact fun hmem => ⟨.inr (.inr hmem), hafter.1 qe hmem⟩
  · rintro ⟨hmem | rfl | hmem, hlt⟩
    · exact absurd (hbefore qe hmem _ List.mem_cons_self) hlt.not_gt
    · exact absurd hlt (Nat.lt_irrefl _)
    · exact hmem

/-- A pre-filled cell holds at most its own digit, which a later peer with the same character takes away (R108). -/
theorem contains_inputStore_of_prefilled {p : Cell} {d : Digit} (hp : (grid p).toNat = 0x31 + d.val) (e : Digit) :
    contains (readField (inputStore w grid) p) e = true ↔
      e = d ∧ ¬ ∃ q, isPeer p q = true ∧ p.index < q.index ∧ grid q = grid p := by
  obtain ⟨before, after, hsplit, hafter⟩ := exists_prefilled_split ((mem_prefilled (p, d)).mpr hp)
  have hother : ∀ qe ∈ after, qe.1 ≠ p := fun qe hmem hqp =>
    absurd ((hafter qe).mp hmem).2 (hqp ▸ Nat.lt_irrefl _)
  have hstore : inputStore w grid = commitAll (commitStore (commitAll (freshStore w) before) p d) after := by
    rw [inputStore, hsplit, commitAll, List.foldl_append]
    rfl
  rw [hstore, contains_readField_commitAll _ hother, readField_commitStore_same, contains_fromDigit, decide_eq_true_eq]
  refine and_congr_right ?_
  rintro rfl
  simp only [hafter, mem_prefilled, Prod.forall, not_exists, not_and, isPeer_symm p, ← Char.toNat_inj, hp]
  exact ⟨fun h q hpeer hlt hchar => h q e ⟨hchar, hlt⟩ hpeer rfl,
    fun h q d ⟨hchar, hlt⟩ hpeer hde => h q hpeer hlt (hde ▸ hchar)⟩

/-! ### The output pass (R104, R109) -/

/-- The response to GETD on a cell that holds the set (R93). -/
def getdResponse (v : CandidateSet) : Rsp :=
  match toDigit v with
  | .ok d    => BitVec.ofNat 16 d.val
  | .error _ => 0x1000#16

theorem getdResponse_fromDigit (d : Digit) : getdResponse (fromDigit d) = BitVec.ofNat 16 d.val := by
  rw [getdResponse, toDigit_fromDigit]

theorem getdResponse_of_ne_fromDigit {v : CandidateSet} (h : ∀ d : Digit, v ≠ fromDigit d) :
    getdResponse v = 0x1000#16 := by
  rw [getdResponse, toDigit_of_ne_fromDigit h]

theorem exec_getdInstr (p : Cell) (s : State) :
    exec (getdInstr p) s = .next { s with rsp := some (getdResponse (s.cand p)) } := by
  by_cases h : ∃ d : Digit, s.cand p = fromDigit d
  · obtain ⟨d, hd⟩ := h
    rw [hd, getdResponse_fromDigit]
    exact exec_getd_of_singleton (toNat_field4 _) (toNat_field4 _) hd
  · rw [not_exists] at h
    rw [getdResponse_of_ne_fromDigit h]
    exact exec_getd_of_no_singleton (toNat_field4 _) (toNat_field4 _) h

/-- The state that GETDs on the listed cells leave when each response is taken. -/
def State.afterGetds (s : State) (qs : List Cell) : State :=
  { s with accepted := s.accepted ++ qs.map getdWord, taken := s.taken ++ qs.map fun q => getdResponse (s.cand q) }

theorem State.afterGetds_cons (s : State) (q : Cell) (qs : List Cell) :
    (s.afterGetds [q]).afterGetds qs = s.afterGetds (q :: qs) := by
  simp [State.afterGetds, State.cand]

theorem issue_getdWord {s : State} (hrsp : s.rsp = none) (q : Cell) :
    issue (getdWord q) s = .next (s.afterGetds [q]) :=
  issue_encode hrsp (exec_getdInstr q _)

theorem issueAll_getdWords {s : State} (hrsp : s.rsp = none) (qs : List Cell) :
    issueAll (qs.map getdWord) s = .next (s.afterGetds qs) := by
  induction qs generalizing s with
  | nil => simp [issueAll, State.afterGetds]
  | cons q qs ih =>
    simp only [List.map_cons, issueAll, issue_getdWord hrsp]
    exact (ih (s := s.afterGetds [q]) hrsp).trans (congrArg _ (s.afterGetds_cons q qs))

theorem gridOfResponses_map (f : Cell → Rsp) (p : Cell) : gridOfResponses (cellsRowMajor.map f) p = readBack (f p) := by
  simp only [gridOfResponses, List.getElem?_map, getElem?_cellsRowMajor, Option.map_some]

theorem readBack_getdResponse_fromDigit (d : Digit) : readBack (getdResponse (fromDigit d)) = Digit.toChar d := by
  rw [getdResponse_fromDigit]
  revert d
  decide

theorem readBack_getdResponse_of_ne_fromDigit {v : CandidateSet} (h : ∀ d : Digit, v ≠ fromDigit d) :
    readBack (getdResponse v) = Config.blank := by
  rw [getdResponse_of_ne_fromDigit h]
  rfl

/-! ### What SOLVE returns (R104, R108, R109) -/

/-- The grid read back from a store by the output pass. -/
def outputGrid (m : Store w) : Grid := fun p => readBack (getdResponse (readField m p))

theorem issue_new {s : State} (hrsp : s.rsp = none) :
    issue (encode .new) s = .next { s with mem := freshStore s.width, accepted := s.accepted ++ [encode .new],
                                           taken := s.taken ++ [0x0000#16] } :=
  issue_encode hrsp rfl

theorem issueAll_inputPass_outputPass {s : State} (hrsp : s.rsp = none) (grid : Grid) :
    issueAll (inputPass grid ++ outputPass) s =
      .next ((s.afterCommits (prefilled grid)).afterGetds cellsRowMajor) :=
  (issueAll_append _ _ _ _ (issueAll_commitWords hrsp (prefilled grid))).trans
    (issueAll_getdWords (s := s.afterCommits (prefilled grid)) hrsp cellsRowMajor)

theorem issueAll_solveCommands (grid : Grid) (s : State) :
    ∃ (t : State) (responses : List Rsp), issueAll (solveCommands grid) s = .next t ∧
      t.taken = responses ++ cellsRowMajor.map fun p => getdResponse (readField (inputStore s.width grid) p) := by
  have hnil : solveCommands grid ≠ [] := List.cons_ne_nil _ _
  rw [← issueAll_takeResponse hnil, State.takeResponse_eq]
  simp only [solveCommands, issueAll, issue_new]
  exact ⟨_, _, issueAll_inputPass_outputPass rfl grid, rfl⟩

theorem solve_eq (grid : Grid) (s : State) : ∃ t, solve grid s = some (t, outputGrid (inputStore s.width grid)) := by
  obtain ⟨t, responses, hissued, htaken⟩ := issueAll_solveCommands grid s
  refine ⟨t, ?_⟩
  have hdrop : t.taken.drop (t.taken.length - Config.ncells) =
      cellsRowMajor.map fun p => getdResponse (readField (inputStore s.width grid) p) := by
    rw [htaken, List.length_append, List.length_map, length_cellsRowMajor]
    exact List.drop_left
  simp only [solve, hissued, hdrop]
  exact congrArg (fun out => some (t, out)) (funext (gridOfResponses_map _))

theorem eq_fromDigit_iff (v : CandidateSet) (d : Digit) : v = fromDigit d ↔ ∀ e, contains v e = true ↔ e = d := by
  constructor
  · rintro rfl e
    rw [contains_fromDigit, decide_eq_true_eq]
  · exact fun h => candidateSet_ext fun e => by rw [contains_fromDigit, Bool.eq_iff_iff, h, decide_eq_true_eq]

theorem outputGrid_of_singleton {m : Store w} {p : Cell} {d : Digit}
    (h : ∀ e, contains (readField m p) e = true ↔ e = d) : outputGrid m p = Digit.toChar d := by
  rw [outputGrid, (eq_fromDigit_iff _ d).mpr h, readBack_getdResponse_fromDigit]

theorem outputGrid_of_no_singleton {m : Store w} {p : Cell}
    (h : ¬ ∃ d : Digit, ∀ e, contains (readField m p) e = true ↔ e = d) : outputGrid m p = Config.blank :=
  readBack_getdResponse_of_ne_fromDigit fun d hd => h ⟨d, (eq_fromDigit_iff _ d).mp hd⟩

/-- A pre-filled cell that a later peer repeats is left no digit. -/
theorem outputGrid_of_repeated {p : Cell} {d : Digit} (hp : (grid p).toNat = 0x31 + d.val)
    (hrepeated : ∃ q, isPeer p q = true ∧ p.index < q.index ∧ grid q = grid p) :
    outputGrid (inputStore w grid) p = Config.blank :=
  outputGrid_of_no_singleton fun ⟨e, he⟩ => ((contains_inputStore_of_prefilled hp e).mp ((he e).mpr rfl)).2 hrepeated

theorem outputGrid_of_not_repeated {p : Cell} {d : Digit} (hp : (grid p).toNat = 0x31 + d.val)
    (hunique : ¬ ∃ q, isPeer p q = true ∧ p.index < q.index ∧ grid q = grid p) :
    outputGrid (inputStore w grid) p = grid p := by
  rw [← (toChar_eq_iff d (grid p)).mpr hp]
  exact outputGrid_of_singleton fun e => (contains_inputStore_of_prefilled hp e).trans (and_iff_left hunique)

/-- Settles O48: the output grid is read back from the store of the input pass, cell by cell. -/
theorem solveOutputForEveryGrid : Obligations.SolveOutputForEveryGrid := by
  intro grid s
  obtain ⟨t, ht⟩ := solve_eq grid s
  refine ⟨t, _, ht, fun p hge hle => ?_, fun p hp => ?_⟩
  · obtain ⟨d, hd⟩ := exists_digit_of_char hge hle
    exact ⟨outputGrid_of_repeated hd, outputGrid_of_not_repeated hd⟩
  · have hleft (d : Digit) : (∀ e : Digit, (∃ q, isPeer p q = true ∧ (grid q).toNat = 0x31 + e.val) ↔ e ≠ d) ↔
        ∀ e, contains (readField (inputStore s.width grid) p) e = true ↔ e = d :=
      forall_congr' fun e => by
        rw [contains_inputStore_of_not_prefilled hp, ne_eq, iff_not_comm]
        exact iff_comm
    simp only [hleft]
    exact ⟨fun d hd => by rw [outputGrid_of_singleton hd, toNat_toChar], outputGrid_of_no_singleton⟩

/-- Settles O49: every cell is pre-filled and none is repeated by a peer. -/
theorem solvedGridIsReturnedUnchanged : Obligations.SolvedGridIsReturnedUnchanged := by
  intro grid s hdigits hdistinct
  obtain ⟨t, out, hsolve, hprefilled, -⟩ := solveOutputForEveryGrid grid s
  refine ⟨t, out, hsolve, fun p => ?_⟩
  obtain ⟨hge, hle⟩ := hdigits p
  exact (hprefilled p hge hle).2 fun ⟨q, hpeer, _, hsame⟩ => hdistinct p q hpeer hsame.symm

end Sys2Proof.Machine
end

section
/-! PROOFS of the statements on statuses (60_exceptions.md): a command that answers an error has changed nothing (R120),
and which command can answer which status (R128). -/

namespace Sys2Proof.Machine

/-! ### The status that a word answers (R81, R119) -/

/-- The status that the checks of R81 give a word, before any look at `M`. -/
def decodeStatus (c : Cmd) : Status :=
  match decode c with
  | .error e => e
  | .ok _    => .ok

theorem decodeStatus_of_error {c : Cmd} {e : Status} (h : decode c = .error e) : decodeStatus c = e := by
  rw [decodeStatus, h]

theorem decodeStatus_of_ok {c : Cmd} {i : Instr} (h : decode c = .ok i) : decodeStatus c = .ok := by
  rw [decodeStatus, h]

/-- In every state a word answers the status of its checks, except that a GETD may answer `AmbiguousCandidates`. -/
theorem statusField_of_execute {c : Cmd} {s t : State} {r : Rsp} (h : execute c s = .next t) (hr : t.rsp = some r) :
    statusField r = statusCode (decodeStatus c) ∨
      (statusField r = statusCode .ambiguousCandidates ∧ opField c = Opcode.getd.code) := by
  cases hdecode : decode c with
  | error e =>
    rw [decodeStatus_of_error hdecode]
    exact .inl (statusField_of_respond ((execute_of_decode_error hdecode s).symm.trans h) hr)
  | ok i =>
    obtain ⟨-, -, hanswer⟩ := decodeRunsTheChecksInOrder
    rw [decodeStatus_of_ok hdecode]
    exact (hanswer c i s t r hdecode h hr).imp_right fun ⟨hstatus, hop⟩ => ⟨hstatus, BitVec.eq_of_toNat_eq hop⟩

/-! ### Errors are precise (R120) -/

/-- What a word answers and leaves does not depend on the response that waits. -/
theorem execute_with_rsp (c : Cmd) (s : State) (rsp : Option Rsp) : execute c { s with rsp := rsp } = execute c s := by
  obtain ⟨m, st, d, hanswers, -⟩ := execute_tame c s.mem
  exact (hanswers _ _ _ _).trans (hanswers _ _ _ _).symm

theorem execute_of_status_ne_ok {c : Cmd} {s t : State} {r : Rsp} (h : execute c s = .next t) (hr : t.rsp = some r)
    (hstatus : statusField r ≠ statusCode .ok) : t = { s with rsp := some r } := by
  obtain ⟨m, st, d, hanswers, -, herror⟩ := execute_tame c s.mem
  cases (hanswers _ _ _ _).symm.trans h
  cases hr
  rw [statusField_responseWord] at hstatus
  obtain ⟨-, rfl⟩ := herror fun hok => hstatus (congrArg statusCode hok)
  rfl

/-- A word of GETD's opcode is a GETD or illegal, and neither writes `M`. -/
theorem execute_readsOnly_of_getd {c : Cmd} (h : opField c = Opcode.getd.code) {w : Width} (m : Store w) :
    ReadsOnly (execute c) m := by
  by_cases hmatch : c &&& Opcode.getd.mask = Opcode.getd.pattern
  · exact readsOnly_of_eq (readsOnly_execGetd (rowField c) (colField c)) fun _ _ _ _ => execute_of_match hmatch _
  · exact readsOnly_of_eq (readsOnly_raise .illegalCommand) fun _ _ _ _ =>
      execute_of_illegal ((decodeCommand_of_opField h).trans (if_neg hmatch)) _

/-- Settles O42: a status that is no GETD's is that of the checks, which look at the word alone; a GETD reads only; and
an error leaves `M`, on which alone the next word's execution depends. -/
theorem errorsArePrecise : Obligations.ErrorsArePrecise := by
  refine ⟨fun c s s' t t' r r' hop h h' hr hr' => ?_, fun c s t hop h => ?_, fun c s t r h hr hstatus => ?_⟩
  · have hstatus {s t r} (h : execute c s = .next t) (hr : t.rsp = some r) :
        statusField r = statusCode (decodeStatus c) :=
      (statusField_of_execute h hr).resolve_right fun ⟨_, hgetd⟩ => hop (congrArg BitVec.toNat hgetd)
    rw [hstatus h hr, hstatus h' hr']
  · obtain ⟨st, d, hanswers⟩ := execute_readsOnly_of_getd (BitVec.eq_of_toNat_eq hop) s.mem
    cases (hanswers _ _ _ _).symm.trans h
    rfl
  · obtain rfl := execute_of_status_ne_ok h hr hstatus
    exact ⟨rfl, fun c' => execute_with_rsp c' s _⟩

/-! ### The statuses of each command (R128): no other is answered -/

/-- The statuses marked in the command's row of R128. -/
def statusesOf : Opcode → List Status
  | .new    => [.ok, .illegalCommand]
  | .setc   => [.ok, .setTooLarge, .invalidCoordinate, .illegalCommand]
  | .setd   => [.ok, .invalidDigit, .invalidCoordinate, .illegalCommand]
  | .getc   => [.ok, .invalidCoordinate, .illegalCommand]
  | .getd   => [.ok, .ambiguousCandidates, .invalidCoordinate, .illegalCommand]
  | .commit => [.ok, .invalidDigit, .invalidCoordinate, .illegalCommand]
  | .clrbit => [.ok, .bitIndexOutOfRange, .illegalCommand]
  | .setbit => [.ok, .bitIndexOutOfRange, .illegalCommand]

theorem ok_mem_statusesOf (op : Opcode) : .ok ∈ statusesOf op := by cases op <;> decide

theorem illegalCommand_mem_statusesOf (op : Opcode) : .illegalCommand ∈ statusesOf op := by cases op <;> decide

/-- A command's row marks the statuses of its own operand checks. -/
theorem mem_statusesOf_of_operandError {i : Instr} {e : Status} (h : operandError i = some e) :
    e ∈ statusesOf i.opcode := by
  cases i <;> simp only [operandError, coordError_eq, digitError_eq, setError_eq, indexError_eq,
    Option.or_eq_some_iff, Option.ite_none_right_eq_some, Option.some.injEq, reduceCtorEq] at h
  case setc | setd | commit => obtain ⟨-, rfl⟩ | ⟨-, -, rfl⟩ := h <;> simp [Instr.opcode, statusesOf]
  case getc | getd | clrbit | setbit =>
    obtain ⟨-, rfl⟩ := h
    simp [Instr.opcode, statusesOf]

theorem eq_illegalCommand_of_decodeCommand {c : Cmd} {e : Status} (h : decodeCommand c = .error e) :
    e = .illegalCommand := by
  obtain ⟨i, hi⟩ | hillegal := decodeCommand_cases c
  · cases hi.symm.trans h
  · exact Except.error.inj (h.symm.trans hillegal)

theorem opcode_of_decodeCommand {c : Cmd} {i : Instr} {op : Opcode} (hop : opField c = op.code)
    (h : decodeCommand c = .ok i) : i.opcode = op := by
  rw [decodeCommand_of_opField hop] at h
  split at h
  · cases h
    exact opcode_instr op c
  · cases h

theorem decodeStatus_mem_statusesOf {c : Cmd} {op : Opcode} (hop : opField c = op.code) :
    decodeStatus c ∈ statusesOf op := by
  cases hdecode : decode c with
  | ok i =>
    rw [decodeStatus_of_ok hdecode]
    exact ok_mem_statusesOf op
  | error e =>
    rw [decodeStatus_of_error hdecode]
    obtain hcommand | ⟨i, hcommand, hcheck⟩ := (decode_eq_error_iff c e).mp hdecode
    · rw [eq_illegalCommand_of_decodeCommand hcommand]
      exact illegalCommand_mem_statusesOf op
    · rw [← opcode_of_decodeCommand hop hcommand]
      exact mem_statusesOf_of_operandError hcheck

theorem decodeStatus_of_reserved {c : Cmd} (h : (opField c).toNat = 0 ∨ 9 ≤ (opField c).toNat) :
    decodeStatus c = .illegalCommand :=
  decodeStatus_of_error ((decode_eq_error_iff _ _).mpr (.inl (decodeCommand_of_reserved h)))

/-- A status answered is that of the checks on some word of the opcode, or GETD's `AmbiguousCandidates`. -/
theorem eq_decodeStatus_of_canAnswer {code : Nat} {st : Status} (h : CanAnswer code st) :
    ∃ c, (opField c).toNat = code ∧
      (st = decodeStatus c ∨ (st = .ambiguousCandidates ∧ opField c = Opcode.getd.code)) := by
  obtain ⟨c, s, t, r, hop, hexecute, hr, hst⟩ := h
  have hanswer := statusField_of_execute hexecute hr
  rw [hst] at hanswer
  exact ⟨c, hop, hanswer.imp statusCode_injective (And.imp_left statusCode_injective)⟩

theorem mem_statusesOf_of_canAnswer {op : Opcode} {st : Status} (h : CanAnswer op.code.toNat st) :
    st ∈ statusesOf op := by
  obtain ⟨c, hop, rfl | ⟨rfl, hgetd⟩⟩ := eq_decodeStatus_of_canAnswer h
  · exact decodeStatus_mem_statusesOf (BitVec.eq_of_toNat_eq hop)
  · rw [hgetd] at hop
    revert hop
    cases op <;> decide

/-! ### The statuses of each command (R128): each is answered -/

theorem canAnswer_of_exec {i : Instr} {s t : State} {r : Rsp} {st : Status} (h : exec i s = .next t)
    (hr : t.rsp = some r) (hst : statusField r = statusCode st) : CanAnswer i.opcode.code.toNat st :=
  ⟨encode i, s, t, r, congrArg BitVec.toNat (opField_encode i),
    (execute_of_decodeCommand (decodeCommand_encode i) s).trans h, hr, hst⟩

theorem canAnswer_of_respond {i : Instr} {s t : State} {st : Status} {d : BitVec 9} (h : exec i s = respond st d t) :
    CanAnswer i.opcode.code.toNat st :=
  canAnswer_of_exec h rfl (statusField_responseWord st d)

theorem canAnswer_of_operandError {i : Instr} {e : Status} (h : operandError i = some e) :
    CanAnswer i.opcode.code.toNat e :=
  canAnswer_of_respond (exec_operandError h State.reset)

theorem canAnswer_of_wellFormed {i : Instr} (h : i.WellFormed) (hi : i.opcode ≠ .getd) :
    CanAnswer i.opcode.code.toNat .ok := by
  obtain ⟨d, t, hexec⟩ | ⟨hgetd, -⟩ := exec_of_wellFormed h State.reset
  · exact canAnswer_of_respond hexec
  · exact absurd hgetd hi

theorem canAnswer_illegalCommand {c : Cmd} (h : decodeCommand c = .error .illegalCommand) :
    CanAnswer (opField c).toNat .illegalCommand :=
  ⟨c, State.reset, _, _, rfl, execute_of_illegal h _, rfl, rfl⟩

/-- A word with the command's opcode and a must-be-zero bit set. -/
theorem canAnswer_illegalCommand_of_opcode (op : Opcode) : CanAnswer op.code.toNat .illegalCommand := by
  have hop : opField (op.pattern ||| op.format.mustBeZero) = op.code := by cases op <;> rfl
  rw [← hop]
  refine canAnswer_illegalCommand (decodeCommand_of_mustBeZero hop ?_)
  cases op <;> decide

/-- GETD of a cell whose set is a singleton. -/
theorem canAnswer_getd_ok : CanAnswer Opcode.getd.code.toNat .ok :=
  have hcand : (State.reset.withMem (writeField State.reset.mem ⟨0, 0⟩ (fromDigit 0))).cand ⟨0, 0⟩ = fromDigit 0 :=
    readField_writeField_same _ _ _
  canAnswer_of_exec (exec_getd_of_singleton (row := 0) (col := 0) rfl rfl hcand) rfl rfl

/-- GETD after reset, when every cell holds all nine digits. -/
theorem canAnswer_getd_ambiguousCandidates : CanAnswer Opcode.getd.code.toNat .ambiguousCandidates := by
  have hcand (d : Digit) : State.reset.cand ⟨0, 0⟩ ≠ fromDigit d := by
    rw [cand_of_mem_eq_freshStore rfl]
    revert d
    decide
  exact canAnswer_of_exec (exec_getd_of_no_singleton (row := 0) (col := 0) rfl rfl hcand) rfl rfl

/-- One example for each mark of R128. -/
theorem canAnswer_of_mem_statusesOf (op : Opcode) : ∀ st ∈ statusesOf op, CanAnswer op.code.toNat st := by
  have hillegal := canAnswer_illegalCommand_of_opcode op
  cases op <;> simp only [statusesOf, List.mem_cons, List.not_mem_nil, or_false, forall_eq_or_imp, forall_eq]
  case new => exact ⟨canAnswer_of_wellFormed (i := .new) (by decide) nofun, hillegal⟩
  case setc =>
    exact ⟨canAnswer_of_wellFormed (i := .setc 0 0 0) (by decide) nofun,
      canAnswer_of_operandError (i := .setc 0 0 0x200) rfl, canAnswer_of_operandError (i := .setc 9 0 0) rfl, hillegal⟩
  case setd =>
    exact ⟨canAnswer_of_wellFormed (i := .setd 0 0 0) (by decide) nofun,
      canAnswer_of_operandError (i := .setd 0 0 9) rfl, canAnswer_of_operandError (i := .setd 9 0 0) rfl, hillegal⟩
  case getc =>
    exact ⟨canAnswer_of_wellFormed (i := .getc 0 0) (by decide) nofun,
      canAnswer_of_operandError (i := .getc 9 0) rfl, hillegal⟩
  case getd =>
    exact ⟨canAnswer_getd_ok, canAnswer_getd_ambiguousCandidates, canAnswer_of_operandError (i := .getd 9 0) rfl,
      hillegal⟩
  case commit =>
    exact ⟨canAnswer_of_wellFormed (i := .commit 0 0 0) (by decide) nofun,
      canAnswer_of_operandError (i := .commit 0 0 9) rfl, canAnswer_of_operandError (i := .commit 9 0 0) rfl, hillegal⟩
  case clrbit =>
    exact ⟨canAnswer_of_wellFormed (i := .clrbit 0) (by decide) nofun,
      canAnswer_of_operandError (i := .clrbit 729) rfl, hillegal⟩
  case setbit =>
    exact ⟨canAnswer_of_wellFormed (i := .setbit 0) (by decide) nofun,
      canAnswer_of_operandError (i := .setbit 729) rfl, hillegal⟩

/-! ### The rows of R128 -/

theorem canAnswer_opcode_iff (op : Opcode) (st : Status) : CanAnswer op.code.toNat st ↔ st ∈ statusesOf op :=
  ⟨mem_statusesOf_of_canAnswer, canAnswer_of_mem_statusesOf op st⟩

theorem canAnswer_reserved_iff {code : BitVec 4} (h : code.toNat = 0 ∨ 9 ≤ code.toNat) (st : Status) :
    CanAnswer code.toNat st ↔ st = .illegalCommand := by
  constructor
  · intro hst
    obtain ⟨c, hop, rfl | ⟨-, hgetd⟩⟩ := eq_decodeStatus_of_canAnswer hst
    · exact decodeStatus_of_reserved (hop.symm ▸ h)
    · rw [← hop, hgetd] at h
      exact absurd h (by decide)
  · rintro rfl
    have hop : opField (code ++ 0#28) = code := BitVec.extractLsb'_append_eq_left
    have hanswer := canAnswer_illegalCommand (decodeCommand_of_reserved (c := code ++ 0#28) (hop.symm ▸ h))
    rwa [hop] at hanswer

/-- Settles O43: one row for each command, and the reserved opcodes. -/
theorem statusesOfEachCommand : Obligations.StatusesOfEachCommand := by
  refine fun st => ⟨canAnswer_opcode_iff .new st, canAnswer_opcode_iff .setc st, canAnswer_opcode_iff .setd st,
    canAnswer_opcode_iff .getc st, canAnswer_opcode_iff .getd st, canAnswer_opcode_iff .commit st,
    canAnswer_opcode_iff .clrbit st, canAnswer_opcode_iff .setbit st, fun op hop => ?_⟩
  have hcode : ∀ op ∈ [0, 9, 10, 11, 12, 13, 14, 15], (BitVec.ofNat 4 op).toNat = op ∧ (op = 0 ∨ 9 ≤ op) := by decide
  obtain ⟨hop, hreserved⟩ := hcode op hop
  rw [← hop] at hreserved ⊢
  exact canAnswer_reserved_iff hreserved st

end Sys2Proof.Machine
end

section
/-! PROOFS of the statements on reset and hazards (70_reset_and_hazards.md): a waiting response holds off every word
until it is taken (R134), and a round with `rst = 1` gives the reset state (R129, R130). -/

namespace Sys2Proof.Machine

/-! ### Rounds in which the waiting response is not taken (R86, R134) -/

/-- While a response waits and the host is not ready, no word is accepted, whatever the host offers (R86). -/
theorem portEvent_waiting {s : State} {inp : HostInput} {r : Rsp} (hrsp : s.rsp = some r) (hrst : inp.rst = false)
    (hready : inp.rspReady = false) : s.portEvent inp = .nothing := by
  cases hcmd : inp.cmd <;> simp [State.portEvent, State.cmdReady, hrsp, hrst, hready, hcmd]

/-- One round of back-pressure; a host that drives nothing more leaves the response waiting as well. -/
theorem step_waiting {s : State} {r : Rsp} (hrsp : s.rsp = some r)
    (hwait : ∀ inp ∈ s.inputs.head?, inp.rst = false ∧ inp.rspReady = false) : step s = .next s.dropInput := by
  cases hinputs : s.inputs with
  | nil =>
    have hdrop : s.dropInput = s := by rw [State.dropInput, hinputs, List.tail_nil, ← hinputs]
    simp only [step, hinputs, hdrop]
  | cons inp rest =>
    obtain ⟨hrst, hready⟩ := hwait inp (by rw [hinputs]; rfl)
    simp only [step, hinputs, portEvent_waiting hrsp hrst hready]

theorem run_succ_of_step {s t : State} (h : step s = .next t) (k : Nat) :
    Host.Core.run Sys2Proof.core (k + 1) s = Host.Core.run Sys2Proof.core k t := by
  have hcore : Sys2Proof.core.step s = .next t := h
  simp only [Host.Core.run, hcore]

/-- Any number of rounds of back-pressure, by induction on that number: each leaves the same response waiting. -/
theorem run_waiting (k : Nat) {s : State} {r : Rsp} (hrsp : s.rsp = some r)
    (hwait : ∀ inp ∈ s.inputs.take k, inp.rst = false ∧ inp.rspReady = false) :
    Host.Core.run Sys2Proof.core k s = .next { s with inputs := s.inputs.drop k } := by
  induction k generalizing s with
  | zero => rfl
  | succ k ih =>
    have hhead : ∀ inp ∈ s.inputs.head?, inp.rst = false ∧ inp.rspReady = false := fun inp hinp =>
      hwait inp (List.mem_of_mem_head? (by rwa [List.head?_take, if_neg k.succ_ne_zero]))
    have htail : ∀ inp ∈ s.dropInput.inputs.take k, inp.rst = false ∧ inp.rspReady = false := fun inp hinp =>
      hwait inp (List.mem_of_mem_tail (by rwa [List.tail_take_eq_take_tail, Nat.add_sub_cancel]))
    calc Host.Core.run Sys2Proof.core (k + 1) s
        = Host.Core.run Sys2Proof.core k s.dropInput := run_succ_of_step (step_waiting hrsp hhead) k
      _ = .next { s.dropInput with inputs := s.dropInput.inputs.drop k } := ih hrsp htail
      _ = .next { s with inputs := s.inputs.drop (k + 1) } := by
        simp only [State.dropInput, List.drop_tail]

/-- Settles O10: rounds without a take repeat `step_waiting`, and a take empties the response port. -/
theorem backPressureHoldsUntilTheResponseIsTaken : Obligations.BackPressureHoldsUntilTheResponseIsTaken := by
  intro k s r hrsp
  refine ⟨run_waiting k hrsp, fun inp rest hinputs hrst hready => ?_⟩
  obtain ⟨htake, -⟩ := takeAndIdleRounds s inp rest hinputs hrst
  exact ⟨_, htake r hrsp hready, rfl, rfl⟩

/-! ### A round with `rst = 1` (R129, R130) -/

theorem portEvent_reset {inp : HostInput} (s : State) (hrst : inp.rst = true) : s.portEvent inp = .reset := by
  rw [State.portEvent, if_pos hrst]

/-- Settles O11: the event of the round is a reset, whatever waits at the ports. -/
theorem resetRoundRestoresTheMachine : Obligations.ResetRoundRestoresTheMachine := by
  intro s inp rest hinputs hrst
  have hstep : step s = .next s.dropInput.applyReset := by
    simp only [step, hinputs, portEvent_reset s hrst]
  have hreset : s.dropInput.applyReset = { State.resetAt s.width with inputs := rest } := by
    rw [State.applyReset, State.dropInput_inputs, hinputs, List.tail_cons, State.dropInput_width]
  exact ⟨rfl, rfl, _, hstep, hreset, rfl, rfl⟩

end Sys2Proof.Machine
end
